-- ==== Sys2Proof/Word.lean ====
section
/-! DEFINITION. The bit patterns the block moves (spec 10_state.md R18, R21; 30_encoding.md R61) and the words
its two formats carry. -/

namespace Sys2Proof

/-- A coil pattern: PAT_W = 4 bits, bit i drives output line i (R18, R21). -/
abbrev Pattern := BitVec 4

/-- A value of the `loop` format: bit 2 is "phase is DELAY", bit 1 `enabled`, bit 0 `direction` (R61, R65). -/
abbrev Selector := BitVec 3

/-- One byte, used only to carry a format's value to the byte decoder (log entry 11). -/
abbrev Byte := BitVec 8

/-- A value of one of the block's two formats (R61). A status code is compared whole and never added, shifted or
masked (R63), so it is the number its STATUS_W bits hold (log entry 5). -/
inductive OpWord where
  | evt (code : Nat)
  | loop (sel : Selector)
  deriving DecidableEq, Repr

end Sys2Proof
end

