-- ==== Sys2Proof/Machine/Inputs.lean ====
section
/-! DEFINITION. What the environment may do (spec 00_scope.md R11, 10_state.md R33, 41_events.md R118): the inputs of the
two levels, and finite and endless sequences of them as plain data. -/

namespace Sys2Proof.Machine

/-- The input ports of the clocked realisation as sampled at one rising edge of `clk` (R33). -/
structure Ports where
  rst : Bool
  evtValid : Bool
  evtCode : Nat
  deriving DecidableEq, Repr, Inhabited

/-- One entry of the total order of steps (R11) in the test-program lines of R70, and the one thing another writer
of the shared output register can do (R43). -/
inductive Turn where
  /-- RESET: the reset of R156. -/
  | reset
  /-- EVT c: one EVT step with status code c. -/
  | evt (code : Nat)
  /-- ITER: one LOOP step, whichever R65 selects. -/
  | iter
  /-- HOLD: one LOOP step that must be ITER_HOLD. -/
  | hold
  /-- FWD: one LOOP step that must be ITER_STEP_FWD. -/
  | fwd
  /-- BWD: one LOOP step that must be ITER_STEP_BWD. -/
  | bwd
  /-- DONE: one LOOP step that must be DELAY_DONE. -/
  | done
  /-- Another writer of the shared output register sets the bits above the block's four (R43, log entry 7). -/
  | platformWrite (bits : Nat)
  deriving DecidableEq, Repr, Inhabited

/-- What happens next to the clocked realisation: a rising edge, or, between edges, another writer's store to the
upper output bits (R33, R43, log entry 7). -/
inductive ClockInput where
  | edge (ports : Ports)
  | platformWrite (bits : Nat)
  deriving DecidableEq, Repr, Inhabited

/-- How a sequence of inputs goes on after its listed part (log entry 2). No form of it ever ends. -/
inductive Tail (α : Type) where
  /-- The environment does nothing more. -/
  | silent
  /-- The inputs `first :: others` come again and again: an endless periodic sequence (92_eei_decisions.md D18). -/
  | repeating (first : α) (others : List α)
  /-- Nothing is known: the inputs are the free values of stream number `stream` from `position` on (Config.freeTurn,
  Config.freeInput), an arbitrary endless sequence (R11, D18). -/
  | free (stream position : Nat)
  deriving DecidableEq, Repr

/-- A sequence of inputs: a listed part, the next one first, and how it goes on. -/
structure Schedule (α : Type) where
  soon : List α
  after : Tail α
  deriving DecidableEq, Repr

/-- The next input of a sequence and the rest of the sequence; `quiet` is the input of an environment that does nothing,
`freeInput` the free values. -/
def Schedule.next {α : Type} (quiet : α) (freeInput : Nat → Nat → α) (σ : Schedule α) : α × Schedule α :=
  match σ.soon, σ.after with
  | a :: as, tail => (a, ⟨as, tail⟩)
  | [], .silent => (quiet, ⟨[], .silent⟩)
  | [], .repeating a as => (a, ⟨as, .repeating a as⟩)
  | [], .free stream position => (freeInput stream position, ⟨[], .free stream (position + 1)⟩)

/-- Which of the spec's two levels the machine runs at (92_eei_decisions.md D1), with the inputs still to come (log
entries 1, 2). -/
inductive Environment where
  | events (turns : Schedule Turn)
  | clocked (inputs : Schedule ClockInput)
  deriving DecidableEq, Repr

end Sys2Proof.Machine
end

