-- ==== Sys2Proof/Syntax.lean ====
section
/-! DEFINITION. The nine operations of the block, one constructor per row of spec/opcode_table.json
(00_scope.md R3). -/

namespace Sys2Proof

/-- The steps of the two agents (R3). No operation has an immediate, a register or an address operand (R66). -/
inductive Instr where
  /-- BTN0, code 0x04 (R112). -/
  | evtEnable
  /-- BTN1, code 0x08 (R113). -/
  | evtDisable
  /-- BTN2, code 0x10 (R114). -/
  | evtToggleDir
  /-- BTN3, code 0x20, reserved (R115). -/
  | evtReserved
  /-- Any other code (R116); the code it arrived with is kept so that encoding gives it back, and no meaning reads it
  (log entry 10). -/
  | evtOther (code : Nat)
  /-- The end of the fixed delay (R89). -/
  | delayDone
  /-- An iteration in the HOLDING state (R86). -/
  | iterHold
  /-- An iteration in the STEPPING state, forward (R87). -/
  | iterStepFwd
  /-- An iteration in the STEPPING state, backward (R88). -/
  | iterStepBwd
  deriving DecidableEq, Repr

end Sys2Proof
end

