-- ==== Sys2Proof/Machine/State.lean ====
section
/-! DEFINITION. The state of the machine: the block's state (spec 10_state.md R13), the platform's bits of the shared
output register (R25), and the environment that says what happens next (R11, R33). -/

namespace Sys2Proof.Machine

/-- Where the loop is: about to iterate, or inside the fixed delay (R19). -/
inductive Phase where
  | ready
  | delay
  deriving DecidableEq, Repr

/-- The machine's state. The first six fields are the block's whole state (R13); the last two lie outside the block. -/
structure State where
  /-- `step_index` (R14): the number its IDX_W bits hold, for every IDX_W at once (log entry 4). -/
  stepIndex : Nat
  /-- `enabled` (R16). -/
  enabled : Bool
  /-- `direction` (R17): false forward, true backward. -/
  direction : Bool
  /-- `coil` (R18): bits 3..0 of the shared output register, and the output port `coil` (R33). -/
  coil : Pattern
  /-- `phase` (R19). -/
  phase : Phase
  /-- `delay_cnt` (R20): the clocked realisation's; no event-level step touches it (log entry 9). -/
  delayCnt : Nat
  /-- Bits OUT_W-1..4 of the shared output register, as a number; the platform's, not the block's (R25, log entry 7). -/
  outUpper : Nat
  /-- The level, and what is still to happen (log entries 1, 2). -/
  env : Environment
  deriving DecidableEq, Repr

/-- The block raises no exception and no step of it faults (60_exceptions.md R131, R132), so there is no reason to
fault: nothing raises one. -/
inductive Fault where
  deriving DecidableEq, Repr

/-- Why a step has no meaning. -/
inductive Refusal where
  /-- Raised by exec's arm of an instruction that has no meaning yet; safe. No arm raises it. -/
  | notModelled (mnemonic : String)
  /-- Raised by the four LOOP meanings where R65 selects another LOOP step: R11 lets only the selected one be taken, and
  R70 calls a program line that names another one ill-formed. Safe (log entry 8). -/
  | loopStepNotSelected (asked selected : Instr)
  deriving DecidableEq, Repr

/-- The reset state (R30): index 0, disabled, forward, coils de-energised, READY, no delay running. The spec leaves the
platform's bits and the environment open: 0, and the event level with nothing known of what comes (log entries 2,
7). -/
def State.reset : State where
  stepIndex := 0
  enabled := false
  direction := false
  coil := 0x0#4
  phase := .ready
  delayCnt := 0
  outUpper := 0
  env := .events ⟨[], .free 0 0⟩

end Sys2Proof.Machine
end

