-- ==== Sys2Proof/Machine/Flags.lean ====
section
/-! DEFINITION. The writes of the only two flags, `enabled` and `direction` (spec 10_state.md R27, R28). No flag is
written as a side effect, so these are all the flag computations there are. -/

namespace Sys2Proof.Machine

/-- Write `enabled` (R16, R28). -/
def State.setEnabled (s : State) (b : Bool) : State := { s with enabled := b }

/-- Write `direction` (R17, R28). -/
def State.setDirection (s : State) (b : Bool) : State := { s with direction := b }

/-- Complement `direction` (R17, R114): the read and the write are one step (R53). -/
def State.toggleDirection (s : State) : State := s.setDirection (!s.direction)

end Sys2Proof.Machine
end

