-- ==== Sys2Proof/Config.lean ====
section
/-! DEFINITION. The implementation parameters of spec 00_scope.md R5: the fixed ones, the defaults, and the open
ones. The index and status-code widths are no parameter of the machine, which covers every width (log entries 4, 5);
the open OUT_W is no parameter either (log entry 7), and OUT_ADDR is used by no rule (R48). Also the free values of
the environment, which the spec leaves open (R11, R118). -/

namespace Sys2Proof.Config

/-- N_STEPS: how many entries the pattern ROM has; fixed (R5, R6). -/
abbrev N_STEPS : Nat := 8

/-- OWN_MASK: the bits of the shared output register the block owns; fixed (R5). -/
abbrev OWN_MASK : Pattern := 0x0F#4

/-- CODE_BTN0 .. CODE_BTN3: the status codes of the four buttons (R5). -/
abbrev CODE_BTN0 : Nat := 0x04
@[inherit_doc CODE_BTN0] abbrev CODE_BTN1 : Nat := 0x08
@[inherit_doc CODE_BTN0] abbrev CODE_BTN2 : Nat := 0x10
@[inherit_doc CODE_BTN0] abbrev CODE_BTN3 : Nat := 0x20

/-- STATUS_W: the default width of a status code, the width of spec/opcode_table.json's `evt` rows (R5, D5). -/
abbrev STATUS_W : Nat := 32

/-- STEP_DELAY_US: the default of the only speed control, in microseconds (R5, R7). -/
def STEP_DELAY_US : Nat := 1200

/-- One less than the clock frequency in hertz. The spec leaves CLK_HZ OPEN (R5, D3), so nothing is known of it
beyond that a clock ticks (log entry 6). -/
opaque clkHzLessOne : Nat

/-- CLK_HZ: the clock frequency of the clocked realisation, OPEN and at least 1 (log entry 6). -/
def CLK_HZ : Nat := clkHzLessOne + 1

/-- The turns of an environment of which nothing is known, by stream and position: free values, so that what holds of
them holds of every endless sequence (R11, R118, D18, log entry 2). -/
opaque freeTurn (stream position : Nat) : Machine.Turn

/-- The same for the clocked level. -/
opaque freeInput (stream position : Nat) : Machine.ClockInput

end Sys2Proof.Config
end

