-- ==== Sys2Proof/Machine/Operands.lean ====
section
/-! DEFINITION. The operands of a stepping iteration (spec 30_encoding.md R66): the index functions (40_sequencer.md
R81-R84) and the pattern ROM (10_state.md R21). An index 0..7 has a type of its own, so that the ROM is asked only for
entries it has (20_memory.md R41, log entry 12). -/

namespace Sys2Proof.Machine

/-- A normalised index, 0..7. -/
abbrev Index := Fin Config.N_STEPS

/-- `norm` (R81): an index of 8 or more becomes 0. -/
def normIndex (i : Nat) : Index := if h : i < Config.N_STEPS then ⟨i, h⟩ else 0

/-- next_fwd (R82). -/
def nextFwd (i : Index) : Index := ⟨(i.val + 1) % Config.N_STEPS, Nat.mod_lt _ (by decide)⟩

/-- next_bwd (R83). -/
def nextBwd (i : Index) : Index := if i = 0 then 7 else ⟨i.val - 1, by omega⟩

/-- next_index (R84): normalise first, then take the transition the direction selects. -/
def nextIndex (i : Nat) (direction : Bool) : Index :=
  if direction then nextBwd (normIndex i) else nextFwd (normIndex i)

/-- The pattern ROM, the source's StepTable (R21): read-only, its contents fixed (R6, R24). -/
def rom (i : Index) : Pattern :=
  match i with
  | 0 => 0x1#4
  | 1 => 0x3#4
  | 2 => 0x2#4
  | 3 => 0x6#4
  | 4 => 0x4#4
  | 5 => 0xC#4
  | 6 => 0x8#4
  | 7 => 0x9#4

end Sys2Proof.Machine
end

