-- ==== Sys2Proof/WellFormed.lean ====
section
/-! DEFINITION. Which terms of Instr stand for an operation of the block: EVT_OTHER's code fits the status code's
width and is none of the four codes that have an operation of their own (spec 30_encoding.md R63). -/

namespace Sys2Proof

/-- The four codes that select an operation other than EVT_OTHER (R63). -/
def buttonCodes : List Nat :=
  [Config.CODE_BTN0, Config.CODE_BTN1, Config.CODE_BTN2, Config.CODE_BTN3]

/-- Well-formed in a block whose status codes are `statusW` bits wide. -/
def Instr.WellFormedAt (statusW : Nat) : Instr → Bool
  | .evtEnable | .evtDisable | .evtToggleDir | .evtReserved => true
  | .evtOther code => decide (code < 2 ^ statusW) && !buttonCodes.contains code
  | .delayDone | .iterHold | .iterStepFwd | .iterStepBwd => true

/-- Well-formed at the default STATUS_W (R5). -/
def Instr.WellFormed (i : Instr) : Bool := i.WellFormedAt Config.STATUS_W

/-- A word of a format at the default STATUS_W: a status code fits its width; every selector value is one. -/
def OpWord.WellFormed : OpWord → Bool
  | .evt code => decide (code < 2 ^ Config.STATUS_W)
  | .loop _ => true

end Sys2Proof
end

