-- ==== Sys2Proof/Decode.lean ====
section
/-! DEFINITION. The decode of the `evt` format (spec 30_encoding.md R63) and of the `loop` format (R65), both total
(R67, R68); the encoder; and a decoder on bytes, which rejects by name a byte string that is no value of a format. -/

namespace Sys2Proof

/-- decode_evt (R63): the whole code is compared for equality; no bit is tested on its own (90_conflicts.md C5). -/
def decodeEvt (code : Nat) : Instr :=
  if code = Config.CODE_BTN0 then .evtEnable
  else if code = Config.CODE_BTN1 then .evtDisable
  else if code = Config.CODE_BTN2 then .evtToggleDir
  else if code = Config.CODE_BTN3 then .evtReserved
  else .evtOther code

/-- A selector matches a row when it agrees with the row's match under the row's mask (R65). -/
def Selector.matchesRow (sel rowMatch rowMask : Selector) : Bool := sel &&& rowMask == rowMatch

/-- The decode of the `loop` format, the rows of R65's table in its order. -/
def decodeLoop (sel : Selector) : Instr :=
  if Selector.matchesRow sel 0b100#3 0b100#3 then .delayDone
  else if Selector.matchesRow sel 0b000#3 0b110#3 then .iterHold
  else if Selector.matchesRow sel 0b010#3 0b111#3 then .iterStepFwd
  else .iterStepBwd

/-- The operation a value of either format selects (R61). -/
def decode : OpWord → Instr
  | .evt code => decodeEvt code
  | .loop sel => decodeLoop sel

/-- The word of an operation, from the same tables: an event's status code, a LOOP step's match value (the bits its row
leaves open are 0, log entry 10). -/
def encode : Instr → OpWord
  | .evtEnable => .evt 0x04
  | .evtDisable => .evt 0x08
  | .evtToggleDir => .evt 0x10
  | .evtReserved => .evt 0x20
  | .evtOther code => .evt code
  | .delayDone => .loop 0b100#3
  | .iterHold => .loop 0b000#3
  | .iterStepFwd => .loop 0b010#3
  | .iterStepBwd => .loop 0b011#3

/-- Why a byte string is no value of a format (R61, R69: no value is longer or shorter than its format). -/
inductive DecodeError where
  /-- Neither one byte (a selector) nor four bytes (a 32-bit status code). -/
  | wrongLength (bytes : Nat)
  /-- One byte whose bits 7..3 are not 0: a selector has three bits. -/
  | selectorTooWide (value : Nat)
  deriving DecidableEq, Repr

/-- The value of a byte string, its first byte the least significant (log entry 11). -/
def valueOfBytes : List Byte → Nat
  | [] => 0
  | b :: bs => b.toNat + 256 * valueOfBytes bs

/-- The format value a byte string carries (log entry 11). -/
def wordOfBytes (bs : List Byte) : Except DecodeError OpWord :=
  match bs with
  | [b] => if b.toNat < 8 then .ok (.loop (BitVec.ofNat 3 b.toNat)) else .error (.selectorTooWide b.toNat)
  | [_, _, _, _] => .ok (.evt (valueOfBytes bs))
  | _ => .error (.wrongLength bs.length)

/-- The decoder on bytes: total, rejecting by name. -/
def decodeBytes (bs : List Byte) : Except DecodeError Instr :=
  match wordOfBytes bs with
  | .ok w => .ok (decode w)
  | .error e => .error e

/-- The `n` bytes of a number, least significant first. -/
def bytesOfNat : Nat → Nat → List Byte
  | 0, _ => []
  | n + 1, w => BitVec.ofNat 8 w :: bytesOfNat n (w / 256)

/-- The bytes of an opcode-table row's word: a row of at most one byte is a `loop` row, a wider one an `evt` row of
STATUS_W = 32 bits (log entry 11). -/
def bytesOfTableWord (nbits w : Nat) : List Byte :=
  if nbits ≤ 8 then bytesOfNat 1 w else bytesOfNat 4 w

/-- The operation read from an opcode-table row's word `w` of `nbits` bits; none where `w` does not fit its row. -/
def decodeTableWord (nbits w : Nat) : Option Instr :=
  if w < 2 ^ (if nbits ≤ 8 then 8 else Config.STATUS_W) then
    match decodeBytes (bytesOfTableWord nbits w) with
    | .ok i => some i
    | .error _ => none
  else none

end Sys2Proof
end

