-- ==== Sys2Proof/Machine/Ops.lean ====
section
/-! DEFINITION. The named operations over the state: one setter per field, the LOOP selector and its guard, emission
and the output merge, and reset. The block has no exception to take or return from (spec 60_exceptions.md R131, R136,
R137: an event saves nothing and restores nothing), so there is no such operation. -/

namespace Sys2Proof.Machine

def State.setStepIndex (s : State) (i : Nat) : State := { s with stepIndex := i }

def State.setPhase (s : State) (p : Phase) : State := { s with phase := p }

def State.setDelayCnt (s : State) (n : Nat) : State := { s with delayCnt := n }

def State.setEnv (s : State) (e : Environment) : State := { s with env := e }

/-- Another writer's store to the bits above the block's four (R43): the block's own state is untouched. -/
def State.setOutUpper (s : State) (bits : Nat) : State := { s with outUpper := bits }

/-- Emission of a pattern (R85): one indivisible write of the four owned bits (R43). -/
def State.emit (s : State) (p : Pattern) : State := { s with coil := p }

/-- The `loop` selector: phase is DELAY, `enabled`, `direction`, from bit 2 down (R65). -/
def State.selector (s : State) : Selector :=
  BitVec.ofBool (decide (s.phase = .delay)) ++ BitVec.ofBool s.enabled ++ BitVec.ofBool s.direction

/-- The LOOP agent's one enabled step (R65, R90). -/
def State.loopStep (s : State) : Instr := decodeLoop s.selector

/-- A LOOP step may be taken when R65 selects it (R11): its effect `t` if it is the selected one, else refused by
name (R70, log entry 8). -/
def State.whenSelected (s : State) (i : Instr) (t : State) : Host.Outcome State Fault Refusal :=
  if s.loopStep = i then .next t else .refused (.loopStepNotSelected i s.loopStep)

/-- OutMerge (R42): the shared register after pattern `p` is written to its owned bits. -/
def outMerge {w : Nat} (r : BitVec w) (p : Pattern) : BitVec w :=
  (r &&& ~~~(Config.OWN_MASK.setWidth w)) ||| (p &&& 0xF#4).setWidth w

/-- The shared output register seen at any width OUT_W (R18, R32): the platform's bits above the block's four. -/
def State.outReg (s : State) (outW : Nat) : BitVec outW := BitVec.ofNat outW (16 * s.outUpper + s.coil.toNat)

/-- Reset of the block (R156): its six fields take their values of R30; the platform's bits are not the block's, and the
environment goes on. -/
def State.resetBlock (s : State) : State :=
  { State.reset with outUpper := s.outUpper, env := s.env }

/-- popcount (R9) of a pattern. -/
def popcount (p : Pattern) : Nat :=
  (p[0]).toNat + (p[1]).toNat + (p[2]).toNat + (p[3]).toNat

end Sys2Proof.Machine
end

