-- ==== Sys2Proof/Machine/Clocked.lean ====
section
/-! DEFINITION. The clocked realisation: the next-state function of spec 70_reset_and_hazards.md R172, written as the
rule writes it and not from the event-level meanings, so that their agreement (R173) is a theorem. -/

namespace Sys2Proof.Machine

/-- The quotient rounded up. -/
def ceilDiv (n d : Nat) : Nat := n / d + (if n % d = 0 then 0 else 1)

/-- DELAY_CYCLES (60_exceptions.md R140): ceil(STEP_DELAY_US * CLK_HZ / 10^6). -/
@[irreducible] def delayCyclesOf (stepDelayUs clkHz : Nat) : Nat := ceilDiv (stepDelayUs * clkHz) 1000000

/-- This machine's DELAY_CYCLES, from the default delay and the open clock frequency (log entry 6). -/
def delayCycles : Nat := delayCyclesOf Config.STEP_DELAY_US Config.CLK_HZ

/-- The LOOP part of an edge (R172, R140). -/
def clockLoopPart (dc : Nat) (s : State) : State :=
  match s.phase with
  | .delay =>
    if 1 < s.delayCnt then s.setDelayCnt (s.delayCnt - 1)
    else (s.setDelayCnt 0).setPhase .ready
  | .ready =>
    if s.enabled then
      let i := nextIndex s.stepIndex s.direction
      let t := (s.setStepIndex i.val).emit (rom i)
      if 1 < dc then (t.setDelayCnt (dc - 1)).setPhase .delay
      else (t.setDelayCnt 0).setPhase .ready
    else s.emit 0x0#4

/-- The EVT part of the same edge (R172): it reads the flags of `s`, the state before the edge, and writes only the
flags of `t`, the LOOP part's result. -/
def clockEvtPart (p : Ports) (s t : State) : State :=
  if p.evtValid then
    match decodeEvt p.evtCode with
    | .evtEnable => t.setEnabled true
    | .evtDisable => t.setEnabled false
    | .evtToggleDir => t.setDirection (!s.direction)
    | .evtReserved | .evtOther _ => t
    | .delayDone | .iterHold | .iterStepFwd | .iterStepBwd => t
  else t

/-- One rising edge (R172) of a block with delay `dc`: reset dominates and discards the event (R156). -/
def clockEdge (dc : Nat) (p : Ports) (s : State) : State :=
  if p.rst then s.resetBlock else clockEvtPart p s (clockLoopPart dc s)

/-- The ports when the environment does nothing. -/
def Ports.quiet : Ports where
  rst := false
  evtValid := false
  evtCode := 0

/-- The ports of one event without reset. -/
def Ports.event (code : Nat) : Ports where
  rst := false
  evtValid := true
  evtCode := code

/-- One input of the clocked level: an edge, or another writer's store between edges. -/
def takeClockInput (dc : Nat) (c : ClockInput) (s : State) : State :=
  match c with
  | .edge p => clockEdge dc p s
  | .platformWrite bits => s.setOutUpper bits

/-- Several inputs in order. -/
def runClock (dc : Nat) : List ClockInput → State → State
  | [], s => s
  | c :: cs, s => runClock dc cs (takeClockInput dc c s)

/-- The clocked level's next input and the rest: in a silent environment only quiet edges come (log entry 2). -/
def nextInput (inputs : Schedule ClockInput) : ClockInput × Schedule ClockInput :=
  inputs.next (.edge Ports.quiet) Config.freeInput

/-- The clocked level's next step. -/
def clockStep (inputs : Schedule ClockInput) (s : State) : State :=
  takeClockInput delayCycles (nextInput inputs).1 (s.setEnv (.clocked (nextInput inputs).2))

/-- The event-level turns one edge maps to (R173): the LOOP step it took, none at a counting edge, with DELAY_DONE
appended when a stepping iteration has DELAY_CYCLES = 1; after that the event. A reset edge maps to a reset. -/
def edgeTurns (dc : Nat) (p : Ports) (s : State) : List Turn :=
  if p.rst then [.reset]
  else
    (match s.phase with
      | .delay => if 1 < s.delayCnt then [] else [.done]
      | .ready => if s.enabled then (if 1 < dc then [.iter] else [.iter, .done]) else [.iter])
    ++ (if p.evtValid then [.evt p.evtCode] else [])

/-- The event-level turns a list of clocked inputs maps to, from state `s` on (R173). -/
def clockTurns (dc : Nat) : List ClockInput → State → List Turn
  | [], _ => []
  | .edge p :: cs, s => edgeTurns dc p s ++ clockTurns dc cs (clockEdge dc p s)
  | .platformWrite bits :: cs, s => .platformWrite bits :: clockTurns dc cs (s.setOutUpper bits)

end Sys2Proof.Machine
end

