-- ==== Sys2Proof/Machine/Event.lean ====
section
/-! DEFINITION. The meanings of the five EVT steps (spec 41_events.md R112-R116). An EVT step can be taken in every
state (R111), writes at most one of the two flags (R117), and saves and restores nothing (60_exceptions.md R136,
R137). -/

namespace Sys2Proof.Machine

/-- EVT_ENABLE (R112). -/
def execEvtEnable (s : State) : Host.Outcome State Fault Refusal := .next (s.setEnabled true)

/-- EVT_DISABLE (R113): the coils are left to the next ITER_HOLD. -/
def execEvtDisable (s : State) : Host.Outcome State Fault Refusal := .next (s.setEnabled false)

/-- EVT_TOGGLE_DIR (R114). -/
def execEvtToggleDir (s : State) : Host.Outcome State Fault Refusal := .next s.toggleDirection

/-- EVT_RESERVED (R115): an explicit no-op; no meaning may be attached to it (R67). -/
def execEvtReserved (s : State) : Host.Outcome State Fault Refusal := .next s

/-- EVT_OTHER (R116): silently ignored, whatever the code. -/
def execEvtOther (_code : Nat) (s : State) : Host.Outcome State Fault Refusal := .next s

end Sys2Proof.Machine
end

