-- ==== Sys2Proof/Machine/Loop.lean ====
section
/-! DEFINITION. The meanings of the four LOOP steps (spec 40_sequencer.md R86-R89). Each is taken exactly when the
selector picks it (30_encoding.md R65). -/

namespace Sys2Proof.Machine

/-- ITER_HOLD (R86): the owned bits are forced to 0; the index is neither advanced nor normalised; no delay. -/
def execIterHold (s : State) : Host.Outcome State Fault Refusal :=
  s.whenSelected .iterHold (s.emit 0x0#4)

/-- The common part of the two stepping iterations: move to index `i`, emit its pattern, begin the delay
(R87, R88). -/
def State.stepTo (s : State) (i : Index) : State := ((s.setStepIndex i.val).emit (rom i)).setPhase .delay

/-- ITER_STEP_FWD (R87). -/
def execIterStepFwd (s : State) : Host.Outcome State Fault Refusal :=
  s.whenSelected .iterStepFwd (s.stepTo (nextFwd (normIndex s.stepIndex)))

/-- ITER_STEP_BWD (R88). -/
def execIterStepBwd (s : State) : Host.Outcome State Fault Refusal :=
  s.whenSelected .iterStepBwd (s.stepTo (nextBwd (normIndex s.stepIndex)))

/-- DELAY_DONE (R89): the delay is over, whatever the flags now hold. -/
def execDelayDone (s : State) : Host.Outcome State Fault Refusal :=
  s.whenSelected .delayDone (s.setPhase .ready)

end Sys2Proof.Machine
end

