-- ==== Sys2Proof/Machine/Dispatch.lean ====
section
/-! DEFINITION. One arm per operation of spec/opcode_table.json. -/

namespace Sys2Proof.Machine

def exec (i : Instr) (s : State) : Host.Outcome State Fault Refusal :=
  match i with
  | .evtEnable => Sys2Proof.Machine.execEvtEnable s
  | .evtDisable => Sys2Proof.Machine.execEvtDisable s
  | .evtToggleDir => Sys2Proof.Machine.execEvtToggleDir s
  | .evtReserved => Sys2Proof.Machine.execEvtReserved s
  | .evtOther code => Sys2Proof.Machine.execEvtOther code s
  | .delayDone => Sys2Proof.Machine.execDelayDone s
  | .iterHold => Sys2Proof.Machine.execIterHold s
  | .iterStepFwd => Sys2Proof.Machine.execIterStepFwd s
  | .iterStepBwd => Sys2Proof.Machine.execIterStepBwd s

end Sys2Proof.Machine
end

