-- ==== Sys2Proof/Machine/Turns.lean ====
section
/-! DEFINITION. The event level (spec 00_scope.md R11, 20_memory.md R50): one turn is one atomic step of one agent, a
reset, or another writer's store; a schedule of turns fixes one interleaving, finite or endless. Also the pseudo-instructions of
30_encoding.md R70, and how an instruction word is placed so that the next step runs it. -/

namespace Sys2Proof.Machine

/-- The instruction a turn runs: an event's is decoded from its code (R63), the LOOP agent's from the state (R65), a
named LOOP line's is the one it names (R70). -/
def Turn.instr (t : Turn) (s : State) : Option Instr :=
  match t with
  | .reset => none
  | .evt code => some (decodeEvt code)
  | .iter => some s.loopStep
  | .hold => some .iterHold
  | .fwd => some .iterStepFwd
  | .bwd => some .iterStepBwd
  | .done => some .delayDone
  | .platformWrite _ => none

/-- One turn. -/
def takeTurn (t : Turn) (s : State) : Host.Outcome State Fault Refusal :=
  match t with
  | .reset => .next s.resetBlock
  | .evt code => exec (decodeEvt code) s
  | .iter => exec s.loopStep s
  | .hold => exec .iterHold s
  | .fwd => exec .iterStepFwd s
  | .bwd => exec .iterStepBwd s
  | .done => exec .delayDone s
  | .platformWrite bits => .next (s.setOutUpper bits)

/-- Several turns in order, stopping at the first that does not answer a next state. -/
def runTurns : List Turn → State → Host.Outcome State Fault Refusal
  | [], s => .next s
  | t :: ts, s =>
    match takeTurn t s with
    | .next u => runTurns ts u
    | .fault f => .fault f
    | .refused r => .refused r

/-- The turn itself, but for a program line that names a LOOP step, which becomes the LOOP agent's own turn: a step that
may be taken in every state (R11, R90). -/
def Turn.unnamed (t : Turn) : Turn :=
  match t with
  | .reset => .reset
  | .evt code => .evt code
  | .iter | .hold | .fwd | .bwd | .done => .iter
  | .platformWrite bits => .platformWrite bits

/-- The event level's next turn and the rest: in a silent environment only the LOOP agent steps (R90); a free turn is
one that may be taken in every state (log entry 2). -/
def nextTurn (turns : Schedule Turn) : Turn × Schedule Turn :=
  turns.next .iter fun stream position => (Config.freeTurn stream position).unnamed

/-- The event level's next step. -/
def eventStep (turns : Schedule Turn) (s : State) : Host.Outcome State Fault Refusal :=
  takeTurn (nextTurn turns).1 (s.setEnv (.events (nextTurn turns).2))

/-- The pseudo-instructions BTN0 .. BTN3 (R70). -/
def Program.btn0 : List Turn := [.evt 0x04]
@[inherit_doc Program.btn0] def Program.btn1 : List Turn := [.evt 0x08]
@[inherit_doc Program.btn0] def Program.btn2 : List Turn := [.evt 0x10]
@[inherit_doc Program.btn0] def Program.btn3 : List Turn := [.evt 0x20]

/-- STEP (R70): ITER then DONE. After an ITER that is ITER_HOLD or DELAY_DONE the phase is READY, so the DONE is
refused: the line is ill-formed there, as R70 says. -/
def Program.step : List Turn := [.iter, .done]

/-- RUN n (R70). -/
def Program.run (n : Nat) : List Turn := List.replicate n .iter

/-- STEPS n (R70). -/
def Program.steps : Nat → List Turn
  | 0 => []
  | n + 1 => Program.step ++ Program.steps n

/-- Put `t` first in the schedule; a clocked environment gives way to the event level, of which nothing more is known
(log entry 3). -/
def Environment.schedule (e : Environment) (t : Turn) : Environment :=
  match e with
  | .events turns => .events ⟨t :: turns.soon, turns.after⟩
  | .clocked _ => .events ⟨[t], .free 0 0⟩

/-- Set the phase and the flags so that the selector of R65 is `sel` (log entry 3). -/
def State.select (s : State) (sel : Selector) : State :=
  { s with phase := if sel[2] then .delay else .ready, enabled := sel[1], direction := sel[0] }

/-- Place a format's word where the next step takes its instruction: an event's code as the next EVT turn; a selector
in the state, with the LOOP agent next (log entry 3). -/
def State.placeWord (s : State) (w : OpWord) : State :=
  match w with
  | .evt code => s.setEnv (s.env.schedule (.evt code))
  | .loop sel => (s.select sel).setEnv (s.env.schedule .iter)

/-- Place an opcode-table row's word; one that no format has leaves the state as it is. -/
def State.placeTableWord (s : State) (nbits w : Nat) : State :=
  match wordOfBytes (bytesOfTableWord nbits w) with
  | .ok ow => s.placeWord ow
  | .error _ => s

end Sys2Proof.Machine
end

