-- ==== Sys2Proof/Machine/Step.lean ====
section
/-! DEFINITION. One step of the machine, at whichever level its environment runs (spec 92_eei_decisions.md D1). -/

namespace Sys2Proof.Machine

/-- One atomic step of one agent (00_scope.md R11), or one rising edge (70_reset_and_hazards.md R172). -/
def step (s : State) : Host.Outcome State Fault Refusal :=
  match s.env with
  | .events turns => eventStep turns s
  | .clocked inputs => .next (clockStep inputs s)

/-- `s` with an opcode-table row's word placed so that the next step runs it (log entry 3). -/
def State.withFetchWord (s : State) (nbits w : Nat) : State := s.placeTableWord nbits w

end Sys2Proof.Machine
end

