-- ==== Sys2Proof/Machine/Software.lean ====
section
/-! DEFINITION. Two things the software original does in more than one step, which the spec compares with the block:
its iteration samples the flags one after the other (spec 20_memory.md R56), and its output write reads the shared
register, masks and writes it back (R43, 70_reset_and_hazards.md R164). No step of the machine uses this file (log
entry 13). -/

namespace Sys2Proof.Machine

/-- The rest of a software iteration, on the two flag values it sampled earlier (R56): what R86-R88 write. -/
def splitIteration (sampledEnabled sampledDirection : Bool) (s : State) : State :=
  if sampledEnabled then
    let i := nextIndex s.stepIndex sampledDirection
    ((s.setStepIndex i.val).emit (rom i)).setPhase .delay
  else s.emit 0x0#4

/-- The shared register and the value a software read-modify-write has read (R43). -/
structure SharedReg (w : Nat) where
  reg : BitVec w
  latch : BitVec w
  deriving DecidableEq, Repr

/-- The block's software original reads the register into its latch. -/
def SharedReg.read {w : Nat} (r : SharedReg w) : SharedReg w := { r with latch := r.reg }

/-- It writes the latched value back with the owned bits replaced (R42, R43). -/
def SharedReg.writeBack {w : Nat} (r : SharedReg w) (p : Pattern) : SharedReg w :=
  { r with reg := outMerge r.latch p }

/-- Another writer stores `v` to the bits above the owned four, keeping the owned ones (R164). -/
def SharedReg.otherWrite {w : Nat} (r : SharedReg w) (v : BitVec w) : SharedReg w :=
  { r with reg := (v &&& ~~~(Config.OWN_MASK.setWidth w)) ||| (r.reg &&& Config.OWN_MASK.setWidth w) }

/-- The block's own write: one indivisible update of the owned bits (R43). -/
def SharedReg.blockWrite {w : Nat} (r : SharedReg w) (p : Pattern) : SharedReg w :=
  { r with reg := outMerge r.reg p }

end Sys2Proof.Machine
end

