-- ==== Sys2Proof/Safety.lean ====
section
/-! DEFINITION. What every state of a run satisfies, in the terms the claims use. -/

namespace Sys2Proof.Machine

/-- The index is in range (spec 10_state.md R15). -/
def State.IndexInRange (s : State) : Prop := s.stepIndex ≤ 7

/-- The coil invariant (40_sequencer.md R95). -/
def State.CoilMatches (s : State) : Prop :=
  (s.phase = .delay → s.coil = rom (normIndex s.stepIndex)) ∧
  (s.phase = .ready → s.coil = 0x0#4 ∨ s.coil = rom (normIndex s.stepIndex))

/-- The two together. -/
def State.Inv (s : State) : Prop := s.IndexInRange ∧ s.CoilMatches

/-- The delay counter of a clocked block with delay `dc`: it runs exactly in DELAY (10_state.md R20) and stays below
DELAY_CYCLES (R13). -/
def State.CounterInv (dc : Nat) (s : State) : Prop := (s.phase = .delay ↔ 0 < s.delayCnt) ∧ s.delayCnt < dc

/-- The machine runs at the clocked level. -/
def State.IsClocked (s : State) : Prop := ∃ inputs, s.env = .clocked inputs

/-- `t` is reached in `n` steps of the run from reset under the environment `e`, any order of the agents and any codes
(00_scope.md R11), finite or endless, or any port values at each edge. -/
def ReachedFromReset (e : Environment) (n : Nat) (t : State) : Prop :=
  Host.Core.run core n (State.reset.setEnv e) = .next t

/-- `r` is the infinite run that the infinite sequence `f` of turns drives (00_scope.md R11): it starts at reset, and each
turn answers the next state. -/
def IsEventRun (f : Nat → Turn) (r : Nat → State) : Prop :=
  r 0 = State.reset ∧ ∀ n, takeTurn (f n) (r n) = .next (r (n + 1))

/-- The same at the clocked level, for a block with delay `dc`. -/
def IsClockedRun (dc : Nat) (f : Nat → ClockInput) (r : Nat → State) : Prop :=
  r 0 = State.reset ∧ ∀ n, r (n + 1) = takeClockInput dc (f n) (r n)

/-- A LOOP operation (00_scope.md R3). -/
def IsLoopOp : Instr → Bool
  | .delayDone | .iterHold | .iterStepFwd | .iterStepBwd => true
  | .evtEnable | .evtDisable | .evtToggleDir | .evtReserved | .evtOther _ => false

/-- An EVT operation (00_scope.md R3). -/
def IsEvtOp (i : Instr) : Bool := !IsLoopOp i

/-- The source's listing of the pattern ROM in forward order (10_state.md R21). -/
def romListing : List Pattern := [0x1#4, 0x3#4, 0x2#4, 0x6#4, 0x4#4, 0xC#4, 0x8#4, 0x9#4]

/-- A list of status codes as EVT turns. -/
def evts (codes : List Nat) : List Turn := codes.map .evt

/-- Two states that agree in everything but `delay_cnt`, which the event level does not have (R13). -/
def State.SameButCounter (s t : State) : Prop := s.setDelayCnt 0 = t.setDelayCnt 0

end Sys2Proof.Machine
end

