-- ==== Sys2Proof/Certificates/Slice0/Obligations.lean ====
section
/-! DEFINITION. The statements about the model, from the numbered rules of spec/. Each says in its docstring which rule
it formalises; OBLIGATIONS.json gives the rule's words. -/

open Sys2Proof Sys2Proof.Machine

/-! ### The LOOP steps: results, frames, completion -/

/-- R86: in HOLDING an iteration completes, forces the coils to 0 and changes nothing else, and a second one changes
nothing at all; a toggle in HOLDING decides the first stepping iteration. -/
def Obligations.IterHoldForcesCoilsToZero : Prop :=
  ∀ s : State, s.phase = .ready → s.enabled = false →
    exec .iterHold s = .next { s with coil := 0x0#4 } ∧
    exec .iterHold { s with coil := 0x0#4 } = .next { s with coil := 0x0#4 } ∧
    State.loopStep { s with direction := !s.direction, enabled := true } =
      (if s.direction then .iterStepFwd else .iterStepBwd)

/-- R87: a forward stepping iteration completes; the index moves to the normalised index plus 1 mod 8, the coils show
the listing's entry for the new index, the delay begins, nothing else changes; from an index in range the pattern
differs in one bit from the old index's. -/
def Obligations.IterStepFwdAdvancesAndEmits : Prop :=
  ∀ s : State, s.phase = .ready → s.enabled = true → s.direction = false →
    ∃ t : State, exec .iterStepFwd s = .next t ∧
      t.stepIndex = ((if 8 ≤ s.stepIndex then 0 else s.stepIndex) + 1) % 8 ∧
      romListing[t.stepIndex]? = some t.coil ∧
      t = { s with stepIndex := t.stepIndex, coil := t.coil, phase := .delay } ∧
      (∀ p, romListing[s.stepIndex]? = some p → popcount (p ^^^ t.coil) = 1)

/-- R88: the same backward; from 0, and from a corrupted index, the new index is 7. -/
def Obligations.IterStepBwdRetreatsAndEmits : Prop :=
  ∀ s : State, s.phase = .ready → s.enabled = true → s.direction = true →
    ∃ t : State, exec .iterStepBwd s = .next t ∧
      t.stepIndex = (if 8 ≤ s.stepIndex ∨ s.stepIndex = 0 then 7 else s.stepIndex - 1) ∧
      romListing[t.stepIndex]? = some t.coil ∧
      t = { s with stepIndex := t.stepIndex, coil := t.coil, phase := .delay }

/-- R89: DELAY_DONE completes whatever the flags hold and changes only the phase. -/
def Obligations.DelayDoneOnlyEndsTheDelay : Prop :=
  ∀ s : State, s.phase = .delay → exec .delayDone s = .next { s with phase := .ready }

/-- R11, R65; the refusal is the model's (log entry 8): a LOOP operation that the state does not select is refused by
name, whatever the state. -/
def Obligations.UnselectedLoopStepIsRefused : Prop :=
  ∀ (i : Instr) (s : State), IsLoopOp i = true → i ≠ s.loopStep →
    exec i s = .refused (.loopStepNotSelected i s.loopStep)

/-- R90: in every state exactly one LOOP operation can be taken, the one R65 selects, and it answers a next state. The
last clause, that in a silent environment it is what a step runs, is the model's choice (log entry 2): R11 leaves the
next agent open. -/
def Obligations.ExactlyOneLoopStepIsEnabled : Prop :=
  ∀ s : State, IsLoopOp s.loopStep = true ∧ (∃ t, exec s.loopStep s = .next t) ∧
    (∀ i, IsLoopOp i = true → (∃ t, exec i s = .next t) → i = s.loopStep) ∧
    (s.env = .events ⟨[], .silent⟩ → step s = exec s.loopStep s)

/-- R94: an iteration taken while disabled emits 0; a disable during the delay leaves the pattern until DELAY_DONE and
the ITER_HOLD after it. -/
def Obligations.DisabledIterationsEmitZero : Prop :=
  (∀ (i : Instr) (s t : State), i = .iterHold ∨ i = .iterStepFwd ∨ i = .iterStepBwd → s.enabled = false →
    exec i s = .next t → t.coil = 0x0#4) ∧
  (∀ s : State, s.phase = .delay →
    runTurns [.evt 0x08, .done] s = .next { s with enabled := false, phase := .ready } ∧
    runTurns [.evt 0x08, .done, .hold] s = .next { s with enabled := false, phase := .ready, coil := 0x0#4 })

/-- R29, R139 (the counter and the fields outside the block: log entries 7, 9): what no LOOP operation writes. -/
def Obligations.LoopStepsNeverWriteTheFlags : Prop :=
  ∀ (i : Instr) (s t : State), IsLoopOp i = true → exec i s = .next t →
    t.enabled = s.enabled ∧ t.direction = s.direction ∧ t.delayCnt = s.delayCnt ∧ t.outUpper = s.outUpper ∧
    t.env = s.env

/-! ### The EVT steps: results, frames, completion -/

/-- R112: EVT_ENABLE completes in every state and sets only `enabled`; when READY the next LOOP step is a stepping
iteration. -/
def Obligations.EvtEnableSetsEnabledOnly : Prop :=
  ∀ s : State, exec .evtEnable s = .next { s with enabled := true } ∧
    (s.phase = .ready → State.loopStep { s with enabled := true } =
      (if s.direction then .iterStepBwd else .iterStepFwd))

/-- R113: EVT_DISABLE completes in every state and clears only `enabled`; the coils wait for the ITER_HOLD that comes
after the running delay, if one runs. -/
def Obligations.EvtDisableClearsEnabledOnly : Prop :=
  ∀ s : State, exec .evtDisable s = .next { s with enabled := false } ∧
    (s.phase = .ready → State.loopStep { s with enabled := false } = .iterHold) ∧
    (s.phase = .delay → State.loopStep { s with enabled := false } = .delayDone)

/-- R114: EVT_TOGGLE_DIR completes in every state and complements only `direction`; two toggles restore it; a toggle
selects the transition of the next stepping iteration. -/
def Obligations.EvtToggleDirComplementsDirectionOnly : Prop :=
  ∀ s : State, exec .evtToggleDir s = .next { s with direction := !s.direction } ∧
    exec .evtToggleDir { s with direction := !s.direction } = .next s ∧
    (s.phase = .ready → s.enabled = true → State.loopStep { s with direction := !s.direction } =
      (if s.direction then .iterStepFwd else .iterStepBwd))

/-- R115: EVT_RESERVED completes with no effect in any state, and 0x20 selects it. -/
def Obligations.EvtReservedHasNoEffect : Prop :=
  decodeEvt 0x20 = .evtReserved ∧ ∀ s : State, exec .evtReserved s = .next s

/-- R116: every code other than the four selects EVT_OTHER, which completes with no effect in any state. -/
def Obligations.EvtOtherHasNoEffect : Prop :=
  (∀ code : Nat, code ≠ 0x04 → code ≠ 0x08 → code ≠ 0x10 → code ≠ 0x20 → decodeEvt code = .evtOther code) ∧
  (∀ (code : Nat) (s : State), exec (.evtOther code) s = .next s)

/-- R117: an EVT operation completes at once in every state, writes at most one flag and nothing else, and what it
writes depends on the flags alone. -/
def Obligations.EvtFootprintIsOneFlag : Prop :=
  ∀ (i : Instr) (s : State), IsEvtOp i = true → ∃ t : State, exec i s = .next t ∧
    t = { s with enabled := t.enabled, direction := t.direction } ∧
    (t.enabled = s.enabled ∨ t.direction = s.direction) ∧
    (∀ s' t' : State, s'.enabled = s.enabled → s'.direction = s.direction → exec i s' = .next t' →
      t'.enabled = t.enabled ∧ t'.direction = t.direction)

/-- R119: the laws of the event operations under sequential composition. -/
def Obligations.EventOperationLaws : Prop :=
  ∀ s : State,
    runTurns (evts [0x04, 0x04]) s = runTurns (evts [0x04]) s ∧
    runTurns (evts [0x08, 0x08]) s = runTurns (evts [0x08]) s ∧
    runTurns (evts [0x04, 0x08]) s = runTurns (evts [0x08]) s ∧
    runTurns (evts [0x08, 0x04]) s = runTurns (evts [0x04]) s ∧
    runTurns (evts [0x10, 0x10]) s = .next s ∧
    (∀ c, c ≠ 0x04 → c ≠ 0x08 → c ≠ 0x10 → runTurns (evts [c]) s = .next s) ∧
    runTurns (evts [0x10, 0x04]) s = runTurns (evts [0x04, 0x10]) s ∧
    runTurns (evts [0x10, 0x08]) s = runTurns (evts [0x08, 0x10]) s ∧
    (s.phase = .delay → ∀ c, runTurns [.evt c, .done] s = runTurns [.done, .evt c] s)

/-! ### Who writes what -/

/-- R14, R16, R17, R18, R19: a field that an operation changed was changed by one of its writers. -/
def Obligations.EachFieldHasItsWriters : Prop :=
  ∀ (i : Instr) (s t : State), exec i s = .next t →
    (t.enabled ≠ s.enabled → i = .evtEnable ∨ i = .evtDisable) ∧
    (t.direction ≠ s.direction → i = .evtToggleDir) ∧
    (t.stepIndex ≠ s.stepIndex → i = .iterStepFwd ∨ i = .iterStepBwd) ∧
    (t.coil ≠ s.coil → i = .iterHold ∨ i = .iterStepFwd ∨ i = .iterStepBwd) ∧
    (t.phase ≠ s.phase → t.phase = .delay → i = .iterStepFwd ∨ i = .iterStepBwd) ∧
    (t.phase ≠ s.phase → t.phase = .ready → i = .delayDone)

/-- R14: no step of the machine writes an index outside 0..7; so a register of any width of at least 3 bits holds every
index that a step leaves (log entry 4). -/
def Obligations.NoStepWritesAnIndexOutOfRange : Prop :=
  ∀ s t : State, step s = .next t →
    (t.stepIndex = s.stepIndex ∨ t.stepIndex ≤ 7) ∧
    (∀ idxW, 3 ≤ idxW → s.stepIndex < 2 ^ idxW → t.stepIndex < 2 ^ idxW)

/-! ### Index functions and pattern ROM -/

/-- R81-R84: the next index of every natural number and direction; normalisation comes first, and the result is in
0..7; backward is plus 7 mod 8. -/
def Obligations.NextIndexNormalisesThenMoves : Prop :=
  ∀ (i : Nat) (d : Bool), (nextIndex i d).val =
    (if d then (if (if 8 ≤ i then 0 else i) = 0 then 7 else (if 8 ≤ i then 0 else i) - 1)
     else ((if 8 ≤ i then 0 else i) + 1) % 8) ∧
    (8 ≤ i → (nextIndex i false).val = 1 ∧ (nextIndex i true).val = 7) ∧
    (nextIndex i d).val ≤ 7 ∧ (i < 8 → (nextIndex i true).val = (i + 7) % 8)

/-- R92: the two transitions are inverse to each other. -/
def Obligations.TransitionsAreMutualInverses : Prop :=
  ∀ i : Index, nextBwd (nextFwd i) = i ∧ nextFwd (nextBwd i) = i

/-- R93: from any index the next eight are all eight, each once, and the eighth is the start; both ways. -/
def Obligations.TransitionsHavePeriodEight : Prop :=
  ∀ i : Index,
    ((List.range 8).map fun k => nextFwd^[k + 1] i).Nodup ∧ nextFwd^[8] i = i ∧
    ((List.range 8).map fun k => nextBwd^[k + 1] i).Nodup ∧ nextBwd^[8] i = i

/-- R21, R22: the ROM's contents; every entry is within the low 4 bits; cyclic neighbours differ in one bit. -/
def Obligations.RomContentsAndHalfStep : Prop :=
  (∀ i : Index, romListing[i.val]? = some (rom i)) ∧
  (∀ i : Index, (rom i).setWidth 8 &&& 0xF0#8 = 0#8) ∧
  (∀ i : Index, popcount (rom i ^^^ rom (nextFwd i)) = 1) ∧
  (List.finRange 8).map (fun i => rom i ^^^ rom (nextFwd i)) =
    [0x2#4, 0x1#4, 0x4#4, 0x2#4, 0x8#4, 0x4#4, 0x1#4, 0x8#4]

/-- R23: even entries drive one line, odd ones two; a two-line entry is the union of its neighbours. -/
def Obligations.RomTwoLineEntriesAreUnions : Prop :=
  ∀ i : Index, popcount (rom i) = (if i.val % 2 = 0 then 1 else 2) ∧
    (i.val % 2 = 1 → rom i = rom (nextBwd i) ||| rom (nextFwd i))

/-! ### The shared output register -/

/-- R42: bits 3..0 of the merge are the pattern's, the others the register's, at every width; and the merge is what an
emission makes of the shared register. -/
def Obligations.OutMergeWritesOwnedBitsOnly : Prop :=
  ∀ (w : Nat) (r : BitVec w) (p : Pattern), 4 ≤ w → ∀ k,
    (outMerge r p).getLsbD k = (if k < 4 then p.getLsbD k else r.getLsbD k) ∧
    (∀ s : State, s.outReg w = r → (s.emit p).coil = p ∧ (s.emit p).outReg w = outMerge r p)

/-- R85: an iteration turns the shared register, at every width, into its merge with the emitted pattern; every other
operation leaves the whole register as it is. -/
def Obligations.EmissionMergesTheSharedRegister : Prop :=
  ∀ (i : Instr) (s t : State) (w : Nat), 4 ≤ w → exec i s = .next t →
    (i = .iterHold ∨ i = .iterStepFwd ∨ i = .iterStepBwd → t.outReg w = outMerge (s.outReg w) t.coil) ∧
    (i ≠ .iterHold → i ≠ .iterStepFwd → i ≠ .iterStepBwd → t.outReg w = s.outReg w)

/-- R43: another writer's store to the upper bits commutes with every operation and every clock edge, so neither loses
the other's update. -/
def Obligations.UpperBitWritesCommuteWithTheBlock : Prop :=
  (∀ (i : Instr) (s t : State) (bits : Nat), exec i s = .next t →
    exec i (s.setOutUpper bits) = .next (t.setOutUpper bits)) ∧
  (∀ (dc : Nat) (p : Ports) (s : State) (bits : Nat),
    clockEdge dc p (s.setOutUpper bits) = (clockEdge dc p s).setOutUpper bits)

/-- R43, R164: the software original's read-modify-write loses another writer's update that falls between its read and
its write-back; the block's write loses it in neither order. -/
def Obligations.SoftwareWriteBackCanLoseAnUpdate : Prop :=
  ∀ (w : Nat) (r : SharedReg w) (v : BitVec w) (p : Pattern) (k : Nat), 4 ≤ k → k < w →
    ((r.read.otherWrite v).writeBack p).reg.getLsbD k = r.reg.getLsbD k ∧
    ((r.otherWrite v).read.writeBack p).reg.getLsbD k = v.getLsbD k ∧
    ((r.otherWrite v).blockWrite p).reg.getLsbD k = v.getLsbD k ∧
    ((r.blockWrite p).otherWrite v).reg.getLsbD k = v.getLsbD k

/-! ### Decoding -/

/-- R63: at every status-code width of at least 6 bits the decode compares the whole code with the four values. -/
def Obligations.EventDecodeComparesWholeCodes : Prop :=
  ∀ (w : Nat) (c : BitVec w), 6 ≤ w → decodeEvt c.toNat =
    if c = 0x04#w then .evtEnable else if c = 0x08#w then .evtDisable
    else if c = 0x10#w then .evtToggleDir else if c = 0x20#w then .evtReserved else .evtOther c.toNat

/-- R64: the zero code, every code with two button bits, and every code with a bit outside 5..2 is EVT_OTHER. -/
def Obligations.MultiButtonAndForeignBitsAreOther : Prop :=
  ∀ code : Nat,
    (code = 0 ∨ (∃ i j, 2 ≤ i ∧ i < j ∧ j ≤ 5 ∧ code.testBit i = true ∧ code.testBit j = true) ∨
      (∃ i, (i < 2 ∨ 6 ≤ i) ∧ code.testBit i = true)) →
    decodeEvt code = .evtOther code

/-- R65: the LOOP step each phase and flags select. -/
def Obligations.LoopDecodeFollowsTheState : Prop :=
  ∀ s : State, s.loopStep =
    match s.phase, s.enabled, s.direction with
    | .delay, _, _ => .delayDone
    | .ready, false, _ => .iterHold
    | .ready, true, false => .iterStepFwd
    | .ready, true, true => .iterStepBwd

/-- R65, R68: every selector value matches exactly one row of the table, and decodes to that row's step. -/
def Obligations.LoopRowsAreDisjointAndCover : Prop :=
  ∀ sel : Selector,
    ([(0b100#3, 0b100#3, Instr.delayDone), (0b000#3, 0b110#3, Instr.iterHold),
      (0b010#3, 0b111#3, Instr.iterStepFwd), (0b011#3, 0b111#3, Instr.iterStepBwd)].filter
        fun row => Selector.matchesRow sel row.1 row.2.1).map (fun row => row.2.2) = [decodeLoop sel]

/-- R61, R63, R65: decoding an encoded well-formed operation gives it back; encoding a decoded status code gives the
code back; what is decoded is well-formed. -/
def Obligations.DecodeAndEncodeAgree : Prop :=
  (∀ i : Instr, i.WellFormed = true → decode (encode i) = i ∧ (encode i).WellFormed = true) ∧
  (∀ w : OpWord, w.WellFormed = true → (decode w).WellFormed = true) ∧
  (∀ code : Nat, encode (decode (.evt code)) = .evt code) ∧
  (∀ sel : Selector, decode (encode (decode (.loop sel))) = decode (.loop sel))

/-- R63, R65: a few words written out bit by bit, and what they decode to. -/
def Obligations.WordsFromTheTableDecode : Prop :=
  decode (.evt 0b00000100) = .evtEnable ∧ decode (.evt 0b00001000) = .evtDisable ∧
  decode (.evt 0b00010000) = .evtToggleDir ∧ decode (.evt 0b00100000) = .evtReserved ∧
  decode (.evt 0b11111111) = .evtOther 0xFF ∧
  decode (.loop 0b101#3) = .delayDone ∧ decode (.loop 0b001#3) = .iterHold ∧
  decode (.loop 0b010#3) = .iterStepFwd ∧ decode (.loop 0b011#3) = .iterStepBwd

/-! ### A step of the machine -/

/-- R11, R50 (log entries 1-3): a step at the event level is exec of the instruction the next turn runs, after the turn
is taken off the schedule; a turn that runs none resets the block or stores the upper bits; at the clocked level a step
is one edge or one such store. The next turn or input is the first listed one; with none listed it is the LOOP agent's
turn or a quiet edge in a silent environment, the first of the repeated ones in a periodic one, and in a free one a free
value, of which the event level's names no LOOP step. -/
def Obligations.StepRunsTheNextTurn : Prop :=
  (∀ (s : State) (σ τ : Schedule Turn) (t : Turn) (i : Instr), s.env = .events σ → nextTurn σ = (t, τ) →
    t.instr s = some i → step s = exec i (s.setEnv (.events τ))) ∧
  (∀ (s : State) (σ τ : Schedule Turn), s.env = .events σ → nextTurn σ = (.reset, τ) →
    step s = .next (s.setEnv (.events τ)).resetBlock) ∧
  (∀ (s : State) (bits : Nat) (σ τ : Schedule Turn), s.env = .events σ → nextTurn σ = (.platformWrite bits, τ) →
    step s = .next ((s.setEnv (.events τ)).setOutUpper bits)) ∧
  (∀ (s : State) (p : Ports) (σ τ : Schedule ClockInput), s.env = .clocked σ → nextInput σ = (.edge p, τ) →
    step s = .next (clockEdge delayCycles p (s.setEnv (.clocked τ)))) ∧
  (∀ (s : State) (bits : Nat) (σ τ : Schedule ClockInput), s.env = .clocked σ →
    nextInput σ = (.platformWrite bits, τ) → step s = .next ((s.setEnv (.clocked τ)).setOutUpper bits)) ∧
  (∀ (t : Turn) (ts : List Turn) (tail : Tail Turn), nextTurn ⟨t :: ts, tail⟩ = (t, ⟨ts, tail⟩)) ∧
  (∀ (c : ClockInput) (cs : List ClockInput) (tail : Tail ClockInput), nextInput ⟨c :: cs, tail⟩ = (c, ⟨cs, tail⟩)) ∧
  nextTurn ⟨[], .silent⟩ = (.iter, ⟨[], .silent⟩) ∧
  nextInput ⟨[], .silent⟩ = (.edge Ports.quiet, ⟨[], .silent⟩) ∧
  (∀ (t : Turn) (ts : List Turn), nextTurn ⟨[], .repeating t ts⟩ = (t, ⟨ts, .repeating t ts⟩)) ∧
  (∀ (c : ClockInput) (cs : List ClockInput), nextInput ⟨[], .repeating c cs⟩ = (c, ⟨cs, .repeating c cs⟩)) ∧
  (∀ k n : Nat, ∃ t : Turn, t ∉ [Turn.hold, .fwd, .bwd, .done] ∧
    nextTurn ⟨[], .free k n⟩ = (t, ⟨[], .free k (n + 1)⟩)) ∧
  (∀ k n : Nat, ∃ c : ClockInput, nextInput ⟨[], .free k n⟩ = (c, ⟨[], .free k (n + 1)⟩))

/-- Log entry 3: a placed table word that decodes is the instruction the next step runs, and it answers a next state;
the block's index, coils and counter are as they were. -/
def Obligations.PlacedWordRunsNext : Prop :=
  ∀ (s : State) (nbits w : Nat) (i : Instr), decodeTableWord nbits w = some i →
    ∃ u t : State, step (s.withFetchWord nbits w) = exec i u ∧ exec i u = .next t ∧
      u.stepIndex = s.stepIndex ∧ u.coil = s.coil ∧ u.delayCnt = s.delayCnt ∧ u.outUpper = s.outUpper ∧
      (8 < nbits → u.phase = s.phase ∧ u.enabled = s.enabled ∧ u.direction = s.direction)

/-- R50: a schedule runs turn by turn in its order, whatever is listed after it and however it goes on; a list of clocked
inputs likewise. -/
def Obligations.SchedulesRunInOrder : Prop :=
  (∀ (ts rest : List Turn) (tail : Tail Turn) (s : State),
    Host.Core.run core ts.length (s.setEnv (.events ⟨ts ++ rest, tail⟩)) =
      runTurns ts (s.setEnv (.events ⟨rest, tail⟩))) ∧
  (∀ (cs rest : List ClockInput) (tail : Tail ClockInput) (s : State),
    Host.Core.run core cs.length (s.setEnv (.clocked ⟨cs ++ rest, tail⟩)) =
      .next (runClock delayCycles cs (s.setEnv (.clocked ⟨rest, tail⟩))))

/-- R131, R132, R70: a step answers a next state, except that a program line naming an unselected LOOP step is refused;
nothing faults. -/
def Obligations.OnlyIllFormedLinesStop : Prop :=
  ∀ s : State, (∃ t, step s = .next t) ∨
    (∃ (line : Turn) (σ τ : Schedule Turn) (i : Instr), s.env = .events σ ∧ nextTurn σ = (line, τ) ∧
      (line = .hold ∨ line = .fwd ∨ line = .bwd ∨ line = .done) ∧ line.instr s = some i ∧ i ≠ s.loopStep ∧
      step s = .refused (.loopStepNotSelected i s.loopStep))

/-! ### Events and the loop -/

/-- R51: events between two LOOP steps compose: the last enable or disable wins, each toggle counts, and nothing else
is kept of them. -/
def Obligations.EventsComposeInOrder : Prop :=
  ∀ (codes : List Nat) (s : State), runTurns (evts codes) s = .next
    { s with
      enabled :=
        match (codes.filter fun c => c == 0x04 || c == 0x08).getLast? with
        | none => s.enabled
        | some c => c == 0x04
      direction := s.direction ^^ (codes.count 0x10 % 2 == 1) }

/-- R56: an iteration that samples `enabled`, lets events happen, samples `direction`, lets more events happen, and
then writes, ends as some atomic run of the same events around one LOOP step. The split iteration is the software
original's, a definition beside the machine (log entry 13). -/
def Obligations.SplitIterationHasAnAtomicRun : Prop :=
  ∀ (s u v : State) (codes1 codes2 : List Nat), s.phase = .ready →
    runTurns (evts codes1) s = .next u → runTurns (evts codes2) u = .next v →
    ∃ before after : List Nat, (before ++ after).Perm (codes1 ++ codes2) ∧
      runTurns (evts before ++ [.iter] ++ evts after) s = .next (splitIteration s.enabled u.direction v)

/-- R160, R161: whatever events arrive in the delay, coils and index stay, no LOOP step but DELAY_DONE can be taken,
and the LOOP agent's next step is DELAY_DONE. -/
def Obligations.EventsNeverCutTheDelay : Prop :=
  ∀ (s : State) (codes : List Nat), s.phase = .delay →
    ∃ t : State, runTurns (evts codes) s = .next t ∧ t.coil = s.coil ∧ t.stepIndex = s.stepIndex ∧ t.phase = .delay ∧
      runTurns (evts codes ++ [.iter]) s = .next { t with phase := .ready } ∧
      (∀ i, IsLoopOp i = true → i ≠ .delayDone → ∀ u, exec i t ≠ .next u)

/-- R96: from a stepping iteration on, whatever events, DELAY_DONEs and ITER_HOLDs come, the next stepping iteration's
pattern differs in one bit from the last one's; an ITER_HOLD between them takes the lines through 0. -/
def Obligations.SuccessivePatternsDifferInOneBit : Prop :=
  ∀ (s u v t : State) (between : List Turn), s.phase = .ready → s.enabled = true → runTurns [.iter] s = .next u →
    (∀ r ∈ between, r = .done ∨ r = .hold ∨ ∃ c, r = .evt c) → runTurns between u = .next v →
    v.phase = .ready → v.enabled = true → runTurns [.iter] v = .next t →
    popcount (u.coil ^^^ t.coil) = 1 ∧ (.hold ∈ between → v.coil = 0x0#4) ∧ (.hold ∉ between → v.coil = u.coil)

/-- R166: a corrupted index survives any number of HOLDs, and the first stepping iteration takes it to 1 or 7. -/
def Obligations.CorruptedIndexSurvivesHolding : Prop :=
  ∀ (n : Nat) (s : State), s.phase = .ready → s.enabled = false → 8 ≤ s.stepIndex →
    ∃ t u : State, runTurns (List.replicate n .iter) s = .next t ∧ t.stepIndex = s.stepIndex ∧
      runTurns (List.replicate n .iter ++ [.evt 0x04, .iter]) s = .next u ∧
      u.stepIndex = (if s.direction then 7 else 1)

/-! ### Reset, and what every run keeps -/

/-- R30: the reset state of the block. -/
def Obligations.ResetStateOfTheBlock : Prop :=
  State.reset.stepIndex = 0 ∧ State.reset.enabled = false ∧ State.reset.direction = false ∧
  State.reset.coil = 0x0#4 ∧ State.reset.phase = .ready ∧ State.reset.delayCnt = 0

/-- R156: an edge with `rst` resets the block's six fields whatever the state and the event, which is discarded, and so
does every further one. -/
def Obligations.ResetEdgeDominates : Prop :=
  ∀ (dc : Nat) (p q : Ports) (s : State), p.rst = true → q.rst = true →
    clockEdge dc p s = { s with stepIndex := 0, enabled := false, direction := false, coil := 0x0#4, phase := .ready, delayCnt := 0 } ∧
    clockEdge dc q (clockEdge dc p s) = clockEdge dc p s

/-- R157: the first LOOP step after reset is ITER_HOLD, and the block stays in HOLDING at index 0 with its coils off
until an EVT_ENABLE arrives. -/
def Obligations.HoldingUntilTheFirstEnable : Prop :=
  State.reset.loopStep = .iterHold ∧ State.reset.direction = false ∧
  (∀ code, ∃ t, exec (decodeEvt code) State.reset = .next t) ∧
  ∀ (turns : List Turn) (t : State), Turn.evt 0x04 ∉ turns → runTurns turns State.reset = .next t →
    t.enabled = false ∧ t.stepIndex = 0 ∧ t.coil = 0x0#4 ∧ t.phase = .ready ∧ t.loopStep = .iterHold

/-- R15, R95 at reset: the invariant of every run holds there. -/
def Obligations.ResetMeetsTheInvariant : Prop := State.reset.Inv ∧ ∀ dc, 1 ≤ dc → State.reset.CounterInv dc

/-- R15, R95: every step, of either level and in any environment, keeps the index in range and the coils at 0 or at
the index's pattern. -/
def Obligations.EveryStepKeepsTheInvariant : Prop :=
  ∀ s t : State, s.Inv → step s = .next t → t.Inv

/-- R15: in every state reached from reset the index is at most 7. -/
def Obligations.ReachedIndexIsInRange : Prop :=
  ∀ (e : Environment) (n : Nat) (t : State), ReachedFromReset e n t → t.stepIndex ≤ 7

/-- R95: in every state reached from reset the coils show the index's pattern in the delay, that or 0 when READY, and
so one of nine values. -/
def Obligations.ReachedCoilIsZeroOrTheIndexPattern : Prop :=
  ∀ (e : Environment) (n : Nat) (t : State), ReachedFromReset e n t →
    (t.phase = .delay → romListing[t.stepIndex]? = some t.coil) ∧
    (t.phase = .ready → t.coil = 0x0#4 ∨ romListing[t.stepIndex]? = some t.coil) ∧
    t.coil ∈ [0x0#4, 0x1#4, 0x3#4, 0x2#4, 0x6#4, 0x4#4, 0xC#4, 0x8#4, 0x9#4]

/-! ### The clocked realisation -/

/-- R140: DELAY_CYCLES is the least number of cycles that lasts at least STEP_DELAY_US, and at least 1; this machine's
is at least 1 whatever its clock. -/
def Obligations.DelayCyclesIsTheCeiling : Prop :=
  (∀ us hz : Nat, 0 < us * hz →
    1 ≤ delayCyclesOf us hz ∧ us * hz ≤ delayCyclesOf us hz * 1000000 ∧
    (delayCyclesOf us hz - 1) * 1000000 < us * hz) ∧
  1 ≤ delayCycles

/-- R13, R20: every clock edge keeps `delay_cnt` below DELAY_CYCLES and running exactly in DELAY. -/
def Obligations.EdgesKeepTheCounter : Prop :=
  ∀ (dc : Nat) (p : Ports) (s : State), 1 ≤ dc → s.CounterInv dc → (clockEdge dc p s).CounterInv dc

/-- R13, R20: so does every step of the machine at the clocked level, which stays at that level. -/
def Obligations.ClockedStepsKeepTheCounter : Prop :=
  ∀ s t : State, s.IsClocked → s.CounterInv delayCycles → step s = .next t →
    t.IsClocked ∧ t.CounterInv delayCycles

/-- R172: the next-state function, field by field: reset dominates; the LOOP part reads the state before the edge; the
EVT part writes only the flags; what is outside the block stays. -/
def Obligations.ClockEdgeFieldByField : Prop :=
  ∀ (dc : Nat) (p : Ports) (s t : State), t = clockEdge dc p s → p.rst = false →
    t.stepIndex = (if s.phase = .ready ∧ s.enabled then (nextIndex s.stepIndex s.direction).val else s.stepIndex) ∧
    t.coil =
      (if s.phase = .delay then s.coil
       else if s.enabled then rom (nextIndex s.stepIndex s.direction) else 0x0#4) ∧
    t.phase =
      (if s.phase = .delay then (if 1 < s.delayCnt then .delay else .ready)
       else if s.enabled then (if 1 < dc then .delay else .ready) else .ready) ∧
    t.delayCnt =
      (if s.phase = .delay then (if 1 < s.delayCnt then s.delayCnt - 1 else 0)
       else if s.enabled then (if 1 < dc then dc - 1 else 0) else s.delayCnt) ∧
    t.enabled =
      (if p.evtValid ∧ p.evtCode = 0x04 then true else if p.evtValid ∧ p.evtCode = 0x08 then false else s.enabled) ∧
    t.direction = (if p.evtValid ∧ p.evtCode = 0x10 then !s.direction else s.direction) ∧
    t.outUpper = s.outUpper ∧ t.env = s.env ∧
    (∀ q : Ports, q.rst = true → clockEdge dc q s = { State.reset with outUpper := s.outUpper, env := s.env })

/-- R135, R172: an event at the edge of a LOOP step lands as if it came right after it. -/
def Obligations.SameEdgeEventComesAfterTheLoopStep : Prop :=
  ∀ (dc code : Nat) (s : State),
    exec (decodeEvt code) (clockEdge dc Ports.quiet s) = .next (clockEdge dc (Ports.event code) s)

/-- R172: no path runs from the event ports to the coils, the index, the phase or the counter within a cycle. -/
def Obligations.EventPortsDoNotReachTheCoilsInACycle : Prop :=
  ∀ (dc : Nat) (p q : Ports) (s : State), p.rst = q.rst →
    (clockEdge dc p s).coil = (clockEdge dc q s).coil ∧
    (clockEdge dc p s).stepIndex = (clockEdge dc q s).stepIndex ∧
    (clockEdge dc p s).phase = (clockEdge dc q s).phase ∧
    (clockEdge dc p s).delayCnt = (clockEdge dc q s).delayCnt

/-- R140: with no event and no reset, the edges after a stepping iteration count down from DELAY_CYCLES - 1, and
exactly DELAY_CYCLES edges after it the block is READY to step again. -/
def Obligations.SteppingIterationsAreDelayCyclesApart : Prop :=
  ∀ (dc k : Nat) (s : State), s.phase = .ready → s.enabled = true → 1 ≤ k → k ≤ dc →
    runClock dc (List.replicate k (.edge Ports.quiet)) s =
      { s with
        stepIndex := (nextIndex s.stepIndex s.direction).val
        coil := rom (nextIndex s.stepIndex s.direction)
        phase := if k < dc then .delay else .ready
        delayCnt := dc - k }

/-- R161: whatever events arrive, and whatever the flags become, no edge within the DELAY_CYCLES - 1 edges after a
stepping edge changes the coils or the index. -/
def Obligations.StepSpacingIsNeverShortened : Prop :=
  ∀ (dc : Nat) (s : State) (p : Ports) (ps : List Ports), s.phase = .ready → s.enabled = true → p.rst = false →
    (∀ q ∈ ps, q.rst = false) → ps.length < dc →
    (runClock dc (ps.map .edge) (clockEdge dc p s)).coil = rom (nextIndex s.stepIndex s.direction) ∧
    (runClock dc (ps.map .edge) (clockEdge dc p s)).stepIndex = (nextIndex s.stepIndex s.direction).val

/-- R173, with the model's own mapping of what R173 does not map: a clocked run of a block with any DELAY_CYCLES, from
any state, is matched edge by edge by the event-level run of the turns its edges map to, in every field but `delay_cnt`.
That a reset edge maps to a RESET turn rests on log entry 15 (DEDUCED), that another writer's store maps to one on log
entry 7 (DESIGN CHOICE). -/
def Obligations.ClockedRunsRefineTheEventLevel : Prop :=
  ∀ (dc : Nat) (cs : List ClockInput) (s s' : State), s'.SameButCounter s →
    (∃ t, runTurns (clockTurns dc cs s) s' = .next t ∧ t.SameButCounter (runClock dc cs s)) ∧
    (∀ cs', clockTurns dc (cs ++ cs') s = clockTurns dc cs s ++ clockTurns dc cs' (runClock dc cs s))

/-- R173 on the machine itself: every clocked run from reset, in any clocked environment, listed, periodic or free, and of
any length, has an event-level run from reset that ends with the same index, flags, coils, phase and upper bits. It rests
on the model's choices of log entries 1 (the two levels), 2 (the environment), 6 (the machine's DELAY_CYCLES) and 15 (a
reset edge maps to a RESET turn). -/
def Obligations.ClockedRunsFromResetHaveEventRuns : Prop :=
  ∀ (σ : Schedule ClockInput) (n : Nat), ∃ (c t : State) (turns : List Turn),
    ReachedFromReset (.clocked σ) n c ∧ ReachedFromReset (.events ⟨turns, .silent⟩) turns.length t ∧
    t.stepIndex = c.stepIndex ∧ t.enabled = c.enabled ∧ t.direction = c.direction ∧ t.coil = c.coil ∧
    t.phase = c.phase ∧ t.outUpper = c.outUpper

/-! ### Endless environments -/

/-- R11, D18: every infinite sequence of LOOP turns, events with any codes, resets and other writers' stores drives
exactly one infinite run from reset, and for every n the machine reaches that run's n-th state in n steps of the
environment that lists the first n turns; the same for every infinite sequence of clocked inputs. -/
def Obligations.EveryInfiniteSequenceHasARun : Prop :=
  (∀ f : Nat → Turn, (∀ n, f n ∉ [Turn.hold, .fwd, .bwd, .done]) →
    ∃ r : Nat → State, IsEventRun f r ∧ (∀ r', IsEventRun f r' → r' = r) ∧
      ∀ (n : Nat) (tail : Tail Turn), ReachedFromReset (.events ⟨(List.range n).map f, tail⟩) n
        ((r n).setEnv (.events ⟨[], tail⟩))) ∧
  (∀ f : Nat → ClockInput, ∃ r : Nat → State, IsClockedRun delayCycles f r ∧
    (∀ r', IsClockedRun delayCycles f r' → r' = r) ∧
    ∀ (n : Nat) (tail : Tail ClockInput), ReachedFromReset (.clocked ⟨(List.range n).map f, tail⟩) n
      ((r n).setEnv (.clocked ⟨[], tail⟩)))

/-- R11, R118, D18: an endless periodic sequence runs its turns again and again; so under endless BTN2 events, at either
level, the direction flips at every step and never settles. -/
def Obligations.EndlessEventsNeverSettle : Prop :=
  (∀ (t : Turn) (ts : List Turn) (k : Nat) (s : State),
    Host.Core.run core (k * (ts.length + 1)) (s.setEnv (.events ⟨[], .repeating t ts⟩)) =
      runTurns (List.replicate k (t :: ts)).flatten (s.setEnv (.events ⟨[], .repeating t ts⟩))) ∧
  (∀ (c : ClockInput) (cs : List ClockInput) (k : Nat) (s : State),
    Host.Core.run core (k * (cs.length + 1)) (s.setEnv (.clocked ⟨[], .repeating c cs⟩)) =
      .next (runClock delayCycles (List.replicate k (c :: cs)).flatten (s.setEnv (.clocked ⟨[], .repeating c cs⟩)))) ∧
  (∀ n : Nat, ∃ t : State, ReachedFromReset (.events ⟨[], .repeating (.evt 0x10) []⟩) n t ∧
    t.direction = (n % 2 == 1)) ∧
  (∀ n : Nat, ∃ t : State, ReachedFromReset (.clocked ⟨[], .repeating (.edge (Ports.event 0x10)) []⟩) n t ∧
    t.direction = (n % 2 == 1))
end

