-- ==== Sys2Proof/Laws/Operands.lean ====
section
/-! SUPPORT. The index functions: ranges and values, so that no later proof unfolds them. -/

namespace Sys2Proof.Machine

theorem normIndex_of_lt {i : Nat} (h : i < 8) : normIndex i = ⟨i, h⟩ := dif_pos h

theorem normIndex_of_ge {i : Nat} (h : 8 ≤ i) : normIndex i = 0 := dif_neg (Nat.not_lt.mpr h)

theorem normIndex_val (i : Nat) : (normIndex i).val = if 8 ≤ i then 0 else i := by
  by_cases h : 8 ≤ i
  · simp [normIndex_of_ge h, h]
  · simp [normIndex_of_lt (Nat.lt_of_not_le h), h]

/-- A normalised index is left as it is. -/
@[simp] theorem normIndex_index (i : Index) : normIndex i.val = i := normIndex_of_lt i.isLt

/-- An index is at most 7. -/
theorem index_le (i : Index) : i.val ≤ 7 := Nat.le_of_lt_succ i.isLt

theorem nextFwd_val (i : Index) : (nextFwd i).val = (i.val + 1) % 8 := rfl

theorem nextBwd_val (i : Index) : (nextBwd i).val = if i.val = 0 then 7 else i.val - 1 := by
  unfold nextBwd
  by_cases h : i = 0
  · simp [h]
  · simp [h]

@[simp] theorem nextIndex_forward (i : Nat) : nextIndex i false = nextFwd (normIndex i) := rfl

@[simp] theorem nextIndex_backward (i : Nat) : nextIndex i true = nextBwd (normIndex i) := rfl

end Sys2Proof.Machine
end

