-- ==== Sys2Proof/Laws/State.lean ====
section
/-! SUPPORT. What each field reads after each update of the state: one lemma per field per update. -/

namespace Sys2Proof.Machine

variable (s : State)

@[simp] theorem State.setStepIndex_stepIndex (i : Nat) : (s.setStepIndex i).stepIndex = i := rfl
@[simp] theorem State.setStepIndex_enabled (i : Nat) : (s.setStepIndex i).enabled = s.enabled := rfl
@[simp] theorem State.setStepIndex_direction (i : Nat) : (s.setStepIndex i).direction = s.direction := rfl
@[simp] theorem State.setStepIndex_coil (i : Nat) : (s.setStepIndex i).coil = s.coil := rfl
@[simp] theorem State.setStepIndex_phase (i : Nat) : (s.setStepIndex i).phase = s.phase := rfl
@[simp] theorem State.setStepIndex_delayCnt (i : Nat) : (s.setStepIndex i).delayCnt = s.delayCnt := rfl
@[simp] theorem State.setStepIndex_outUpper (i : Nat) : (s.setStepIndex i).outUpper = s.outUpper := rfl
@[simp] theorem State.setStepIndex_env (i : Nat) : (s.setStepIndex i).env = s.env := rfl

@[simp] theorem State.setEnabled_stepIndex (b : Bool) : (s.setEnabled b).stepIndex = s.stepIndex := rfl
@[simp] theorem State.setEnabled_enabled (b : Bool) : (s.setEnabled b).enabled = b := rfl
@[simp] theorem State.setEnabled_direction (b : Bool) : (s.setEnabled b).direction = s.direction := rfl
@[simp] theorem State.setEnabled_coil (b : Bool) : (s.setEnabled b).coil = s.coil := rfl
@[simp] theorem State.setEnabled_phase (b : Bool) : (s.setEnabled b).phase = s.phase := rfl
@[simp] theorem State.setEnabled_delayCnt (b : Bool) : (s.setEnabled b).delayCnt = s.delayCnt := rfl
@[simp] theorem State.setEnabled_outUpper (b : Bool) : (s.setEnabled b).outUpper = s.outUpper := rfl
@[simp] theorem State.setEnabled_env (b : Bool) : (s.setEnabled b).env = s.env := rfl

@[simp] theorem State.setDirection_stepIndex (b : Bool) : (s.setDirection b).stepIndex = s.stepIndex := rfl
@[simp] theorem State.setDirection_enabled (b : Bool) : (s.setDirection b).enabled = s.enabled := rfl
@[simp] theorem State.setDirection_direction (b : Bool) : (s.setDirection b).direction = b := rfl
@[simp] theorem State.setDirection_coil (b : Bool) : (s.setDirection b).coil = s.coil := rfl
@[simp] theorem State.setDirection_phase (b : Bool) : (s.setDirection b).phase = s.phase := rfl
@[simp] theorem State.setDirection_delayCnt (b : Bool) : (s.setDirection b).delayCnt = s.delayCnt := rfl
@[simp] theorem State.setDirection_outUpper (b : Bool) : (s.setDirection b).outUpper = s.outUpper := rfl
@[simp] theorem State.setDirection_env (b : Bool) : (s.setDirection b).env = s.env := rfl

@[simp] theorem State.emit_stepIndex (p : Pattern) : (s.emit p).stepIndex = s.stepIndex := rfl
@[simp] theorem State.emit_enabled (p : Pattern) : (s.emit p).enabled = s.enabled := rfl
@[simp] theorem State.emit_direction (p : Pattern) : (s.emit p).direction = s.direction := rfl
@[simp] theorem State.emit_coil (p : Pattern) : (s.emit p).coil = p := rfl
@[simp] theorem State.emit_phase (p : Pattern) : (s.emit p).phase = s.phase := rfl
@[simp] theorem State.emit_delayCnt (p : Pattern) : (s.emit p).delayCnt = s.delayCnt := rfl
@[simp] theorem State.emit_outUpper (p : Pattern) : (s.emit p).outUpper = s.outUpper := rfl
@[simp] theorem State.emit_env (p : Pattern) : (s.emit p).env = s.env := rfl

@[simp] theorem State.setPhase_stepIndex (p : Phase) : (s.setPhase p).stepIndex = s.stepIndex := rfl
@[simp] theorem State.setPhase_enabled (p : Phase) : (s.setPhase p).enabled = s.enabled := rfl
@[simp] theorem State.setPhase_direction (p : Phase) : (s.setPhase p).direction = s.direction := rfl
@[simp] theorem State.setPhase_coil (p : Phase) : (s.setPhase p).coil = s.coil := rfl
@[simp] theorem State.setPhase_phase (p : Phase) : (s.setPhase p).phase = p := rfl
@[simp] theorem State.setPhase_delayCnt (p : Phase) : (s.setPhase p).delayCnt = s.delayCnt := rfl
@[simp] theorem State.setPhase_outUpper (p : Phase) : (s.setPhase p).outUpper = s.outUpper := rfl
@[simp] theorem State.setPhase_env (p : Phase) : (s.setPhase p).env = s.env := rfl

@[simp] theorem State.setDelayCnt_stepIndex (n : Nat) : (s.setDelayCnt n).stepIndex = s.stepIndex := rfl
@[simp] theorem State.setDelayCnt_enabled (n : Nat) : (s.setDelayCnt n).enabled = s.enabled := rfl
@[simp] theorem State.setDelayCnt_direction (n : Nat) : (s.setDelayCnt n).direction = s.direction := rfl
@[simp] theorem State.setDelayCnt_coil (n : Nat) : (s.setDelayCnt n).coil = s.coil := rfl
@[simp] theorem State.setDelayCnt_phase (n : Nat) : (s.setDelayCnt n).phase = s.phase := rfl
@[simp] theorem State.setDelayCnt_delayCnt (n : Nat) : (s.setDelayCnt n).delayCnt = n := rfl
@[simp] theorem State.setDelayCnt_outUpper (n : Nat) : (s.setDelayCnt n).outUpper = s.outUpper := rfl
@[simp] theorem State.setDelayCnt_env (n : Nat) : (s.setDelayCnt n).env = s.env := rfl

@[simp] theorem State.setOutUpper_stepIndex (n : Nat) : (s.setOutUpper n).stepIndex = s.stepIndex := rfl
@[simp] theorem State.setOutUpper_enabled (n : Nat) : (s.setOutUpper n).enabled = s.enabled := rfl
@[simp] theorem State.setOutUpper_direction (n : Nat) : (s.setOutUpper n).direction = s.direction := rfl
@[simp] theorem State.setOutUpper_coil (n : Nat) : (s.setOutUpper n).coil = s.coil := rfl
@[simp] theorem State.setOutUpper_phase (n : Nat) : (s.setOutUpper n).phase = s.phase := rfl
@[simp] theorem State.setOutUpper_delayCnt (n : Nat) : (s.setOutUpper n).delayCnt = s.delayCnt := rfl
@[simp] theorem State.setOutUpper_outUpper (n : Nat) : (s.setOutUpper n).outUpper = n := rfl
@[simp] theorem State.setOutUpper_env (n : Nat) : (s.setOutUpper n).env = s.env := rfl

@[simp] theorem State.setEnv_stepIndex (e : Environment) : (s.setEnv e).stepIndex = s.stepIndex := rfl
@[simp] theorem State.setEnv_enabled (e : Environment) : (s.setEnv e).enabled = s.enabled := rfl
@[simp] theorem State.setEnv_direction (e : Environment) : (s.setEnv e).direction = s.direction := rfl
@[simp] theorem State.setEnv_coil (e : Environment) : (s.setEnv e).coil = s.coil := rfl
@[simp] theorem State.setEnv_phase (e : Environment) : (s.setEnv e).phase = s.phase := rfl
@[simp] theorem State.setEnv_delayCnt (e : Environment) : (s.setEnv e).delayCnt = s.delayCnt := rfl
@[simp] theorem State.setEnv_outUpper (e : Environment) : (s.setEnv e).outUpper = s.outUpper := rfl
@[simp] theorem State.setEnv_env (e : Environment) : (s.setEnv e).env = e := rfl

@[simp] theorem State.toggleDirection_stepIndex : s.toggleDirection.stepIndex = s.stepIndex := rfl
@[simp] theorem State.toggleDirection_enabled : s.toggleDirection.enabled = s.enabled := rfl
@[simp] theorem State.toggleDirection_direction : s.toggleDirection.direction = !s.direction := rfl
@[simp] theorem State.toggleDirection_coil : s.toggleDirection.coil = s.coil := rfl
@[simp] theorem State.toggleDirection_phase : s.toggleDirection.phase = s.phase := rfl
@[simp] theorem State.toggleDirection_delayCnt : s.toggleDirection.delayCnt = s.delayCnt := rfl
@[simp] theorem State.toggleDirection_outUpper : s.toggleDirection.outUpper = s.outUpper := rfl
@[simp] theorem State.toggleDirection_env : s.toggleDirection.env = s.env := rfl

@[simp] theorem State.stepTo_stepIndex (i : Index) : (s.stepTo i).stepIndex = i.val := rfl
@[simp] theorem State.stepTo_enabled (i : Index) : (s.stepTo i).enabled = s.enabled := rfl
@[simp] theorem State.stepTo_direction (i : Index) : (s.stepTo i).direction = s.direction := rfl
@[simp] theorem State.stepTo_coil (i : Index) : (s.stepTo i).coil = rom i := rfl
@[simp] theorem State.stepTo_phase (i : Index) : (s.stepTo i).phase = .delay := rfl
@[simp] theorem State.stepTo_delayCnt (i : Index) : (s.stepTo i).delayCnt = s.delayCnt := rfl
@[simp] theorem State.stepTo_outUpper (i : Index) : (s.stepTo i).outUpper = s.outUpper := rfl
@[simp] theorem State.stepTo_env (i : Index) : (s.stepTo i).env = s.env := rfl

@[simp] theorem State.resetBlock_stepIndex : s.resetBlock.stepIndex = 0 := rfl
@[simp] theorem State.resetBlock_enabled : s.resetBlock.enabled = false := rfl
@[simp] theorem State.resetBlock_direction : s.resetBlock.direction = false := rfl
@[simp] theorem State.resetBlock_coil : s.resetBlock.coil = 0x0#4 := rfl
@[simp] theorem State.resetBlock_phase : s.resetBlock.phase = .ready := rfl
@[simp] theorem State.resetBlock_delayCnt : s.resetBlock.delayCnt = 0 := rfl
@[simp] theorem State.resetBlock_outUpper : s.resetBlock.outUpper = s.outUpper := rfl
@[simp] theorem State.resetBlock_env : s.resetBlock.env = s.env := rfl

/-- Two states with the same fields are the same state. -/
@[ext] theorem State.ext_fields {s t : State} (h1 : s.stepIndex = t.stepIndex) (h2 : s.enabled = t.enabled)
    (h3 : s.direction = t.direction) (h4 : s.coil = t.coil) (h5 : s.phase = t.phase)
    (h6 : s.delayCnt = t.delayCnt) (h7 : s.outUpper = t.outUpper) (h8 : s.env = t.env) : s = t := by
  cases s; cases t; simp_all

end Sys2Proof.Machine
end

