-- ==== Sys2Proof/Laws/Ops.lean ====
section
/-! SUPPORT. The LOOP selector and its guard, and the output merge bit by bit: what each can do, said once. -/

namespace Sys2Proof.Machine

variable {s t : State} {i : Instr}

theorem State.loopStep_delay (hp : s.phase = .delay) : s.loopStep = .delayDone := by
  unfold State.loopStep State.selector
  rw [hp]
  cases s.enabled <;> cases s.direction <;> rfl

theorem State.loopStep_hold (hp : s.phase = .ready) (he : s.enabled = false) : s.loopStep = .iterHold := by
  unfold State.loopStep State.selector
  rw [hp, he]
  cases s.direction <;> rfl

theorem State.loopStep_fwd (hp : s.phase = .ready) (he : s.enabled = true) (hd : s.direction = false) :
    s.loopStep = .iterStepFwd := by
  unfold State.loopStep State.selector
  rw [hp, he, hd]
  rfl

theorem State.loopStep_bwd (hp : s.phase = .ready) (he : s.enabled = true) (hd : s.direction = true) :
    s.loopStep = .iterStepBwd := by
  unfold State.loopStep State.selector
  rw [hp, he, hd]
  rfl

/-- The four things the selector can pick, each with the state that picks it. -/
theorem State.loopStep_cases (s : State) :
    (s.phase = .delay ∧ s.loopStep = .delayDone) ∨
    (s.phase = .ready ∧ s.enabled = false ∧ s.loopStep = .iterHold) ∨
    (s.phase = .ready ∧ s.enabled = true ∧ s.direction = false ∧ s.loopStep = .iterStepFwd) ∨
    (s.phase = .ready ∧ s.enabled = true ∧ s.direction = true ∧ s.loopStep = .iterStepBwd) := by
  cases hp : s.phase
  · cases he : s.enabled
    · simp [State.loopStep_hold hp he]
    · cases hd : s.direction
      · simp [State.loopStep_fwd hp he hd]
      · simp [State.loopStep_bwd hp he hd]
  · simp [State.loopStep_delay hp]

/-- The guard answers a next state exactly for the selected operation, and then with its effect. -/
theorem State.whenSelected_next {u : State} : s.whenSelected i t = .next u ↔ s.loopStep = i ∧ t = u := by
  unfold State.whenSelected
  split <;> simp_all

/-- The guard refuses exactly the other operations, by name. -/
theorem State.whenSelected_eq_refused {r : Refusal} :
    s.whenSelected i t = .refused r ↔ s.loopStep ≠ i ∧ r = .loopStepNotSelected i s.loopStep := by
  unfold State.whenSelected
  split <;> simp_all [eq_comm]

theorem State.whenSelected_of (h : s.loopStep = i) : s.whenSelected i t = .next t := if_pos h

theorem State.whenSelected_refused (h : s.loopStep ≠ i) :
    s.whenSelected i t = .refused (.loopStepNotSelected i s.loopStep) := if_neg h

/-- The selector reads the phase and the two flags, and nothing else. -/
theorem State.loopStep_congr (hp : s.phase = t.phase) (he : s.enabled = t.enabled) (hd : s.direction = t.direction) :
    s.loopStep = t.loopStep := by
  unfold State.loopStep State.selector
  rw [hp, he, hd]

@[simp] theorem State.loopStep_setEnv (e : Environment) : (s.setEnv e).loopStep = s.loopStep := rfl

@[simp] theorem State.loopStep_setOutUpper (n : Nat) : (s.setOutUpper n).loopStep = s.loopStep := rfl

@[simp] theorem State.loopStep_setDelayCnt (n : Nat) : (s.setDelayCnt n).loopStep = s.loopStep := rfl

/-- The mask of the owned bits, bit by bit. -/
@[simp] theorem ownMask_bit (k : Nat) : (Config.OWN_MASK).getLsbD k = decide (k < 4) := by
  by_cases hk : k < 4
  · interval_cases k <;> rfl
  · rw [BitVec.getLsbD_of_ge _ _ (by omega)]
    simp [hk]

end Sys2Proof.Machine
end

