-- ==== Sys2Proof/Laws/Clocked.lean ====
section
/-! SUPPORT. What an edge of the clocked realisation does, by phase and flags, and that its EVT part writes only the
flags. -/

namespace Sys2Proof.Machine

variable {s t : State} {dc : Nat} {p : Ports}

/-- The quotient rounded up is at least 1 for a positive number, and is the least that covers it. -/
theorem ceilDiv_spec {n d : Nat} (hn : 0 < n) (hd : 0 < d) :
    1 ≤ ceilDiv n d ∧ n ≤ ceilDiv n d * d ∧ (ceilDiv n d - 1) * d < n := by
  have hm := Nat.mod_add_div n d
  have hlt := Nat.mod_lt n hd
  rw [Nat.mul_comm] at hm
  unfold ceilDiv
  generalize n / d = q at *
  by_cases h : n % d = 0
  · cases q with
    | zero => omega
    | succ q =>
      simp only [h, if_true, Nat.add_zero, Nat.add_sub_cancel, Nat.succ_mul] at hm ⊢
      omega
  · simp only [h, if_false, Nat.add_sub_cancel, Nat.succ_mul]
    omega

theorem clockLoopPart_count (hp : s.phase = .delay) (hc : 1 < s.delayCnt) :
    clockLoopPart dc s = s.setDelayCnt (s.delayCnt - 1) := by
  simp [clockLoopPart, hp, hc]

theorem clockLoopPart_done (hp : s.phase = .delay) (hc : ¬ 1 < s.delayCnt) :
    clockLoopPart dc s = (s.setDelayCnt 0).setPhase .ready := by
  simp [clockLoopPart, hp, hc]

theorem clockLoopPart_hold (hp : s.phase = .ready) (he : s.enabled = false) :
    clockLoopPart dc s = s.emit 0x0#4 := by
  simp [clockLoopPart, hp, he]

theorem clockLoopPart_step (hp : s.phase = .ready) (he : s.enabled = true) :
    clockLoopPart dc s =
      ((s.stepTo (nextIndex s.stepIndex s.direction)).setDelayCnt (if 1 < dc then dc - 1 else 0)).setPhase
        (if 1 < dc then .delay else .ready) := by
  by_cases hd : 1 < dc <;> simp [clockLoopPart, hp, he, hd, State.stepTo, State.setPhase, State.setDelayCnt]

/-- The LOOP part of an edge writes neither the flags nor anything outside the block. -/
theorem clockLoopPart_frame (dc : Nat) (s : State) :
    (clockLoopPart dc s).enabled = s.enabled ∧ (clockLoopPart dc s).direction = s.direction ∧
    (clockLoopPart dc s).outUpper = s.outUpper ∧ (clockLoopPart dc s).env = s.env := by
  unfold clockLoopPart
  split
  · split <;> simp
  · split
    · split <;> simp
    · simp

/-- The EVT part of an edge writes only the flags. -/
theorem clockEvtPart_frame (p : Ports) (s t : State) :
    clockEvtPart p s t = { t with enabled := (clockEvtPart p s t).enabled, direction := (clockEvtPart p s t).direction } := by
  unfold clockEvtPart
  split
  · cases decodeEvt p.evtCode <;> rfl
  · rfl

@[simp] theorem nextInput_cons (c : ClockInput) (cs : List ClockInput) (tail : Tail ClockInput) :
    nextInput ⟨c :: cs, tail⟩ = (c, ⟨cs, tail⟩) := rfl

@[simp] theorem nextInput_silent : nextInput ⟨[], .silent⟩ = (.edge Ports.quiet, ⟨[], .silent⟩) := rfl

@[simp] theorem nextInput_repeating (c : ClockInput) (cs : List ClockInput) :
    nextInput ⟨[], .repeating c cs⟩ = (c, ⟨cs, .repeating c cs⟩) := rfl

@[simp] theorem nextInput_free (stream position : Nat) :
    nextInput ⟨[], .free stream position⟩ =
      (Config.freeInput stream position, ⟨[], .free stream (position + 1)⟩) := rfl

theorem clockEdge_reset (h : p.rst = true) : clockEdge dc p s = s.resetBlock := if_pos h

theorem clockEdge_run (h : p.rst = false) : clockEdge dc p s = clockEvtPart p s (clockLoopPart dc s) := by
  simp [clockEdge, h]

end Sys2Proof.Machine
end

