-- ==== Sys2Proof/Laws/Exec.lean ====
section
/-! SUPPORT. Everything an operation can do, said once: the inversion lemma of exec, and its completion per agent. -/

namespace Sys2Proof.Machine

variable {s t : State} {i : Instr}

/-- If exec answers a next state, one of the nine operations' effects is it, and a LOOP operation was the selected
one. -/
theorem exec_next_cases (h : exec i s = .next t) :
    (i = .evtEnable ∧ t = s.setEnabled true) ∨
    (i = .evtDisable ∧ t = s.setEnabled false) ∨
    (i = .evtToggleDir ∧ t = s.toggleDirection) ∨
    ((i = .evtReserved ∨ ∃ code, i = .evtOther code) ∧ t = s) ∨
    (i = .delayDone ∧ s.loopStep = .delayDone ∧ t = s.setPhase .ready) ∨
    (i = .iterHold ∧ s.loopStep = .iterHold ∧ t = s.emit 0x0#4) ∨
    (i = .iterStepFwd ∧ s.loopStep = .iterStepFwd ∧ t = s.stepTo (nextFwd (normIndex s.stepIndex))) ∨
    (i = .iterStepBwd ∧ s.loopStep = .iterStepBwd ∧ t = s.stepTo (nextBwd (normIndex s.stepIndex))) := by
  cases i with
  | evtEnable => cases h; simp
  | evtDisable => cases h; simp
  | evtToggleDir => cases h; simp
  | evtReserved => cases h; simp
  | evtOther code => cases h; simp
  | delayDone => obtain ⟨hs, rfl⟩ := State.whenSelected_next.mp h; simp [hs]
  | iterHold => obtain ⟨hs, rfl⟩ := State.whenSelected_next.mp h; simp [hs]
  | iterStepFwd => obtain ⟨hs, rfl⟩ := State.whenSelected_next.mp h; simp [hs]
  | iterStepBwd => obtain ⟨hs, rfl⟩ := State.whenSelected_next.mp h; simp [hs]

/-- If exec refuses, it refuses a LOOP operation that is not the selected one. -/
theorem exec_refused_cases {r : Refusal} (h : exec i s = .refused r) :
    (i = .delayDone ∨ i = .iterHold ∨ i = .iterStepFwd ∨ i = .iterStepBwd) ∧ s.loopStep ≠ i ∧
      r = .loopStepNotSelected i s.loopStep := by
  cases i with
  | evtEnable => cases h
  | evtDisable => cases h
  | evtToggleDir => cases h
  | evtReserved => cases h
  | evtOther code => cases h
  | delayDone => exact ⟨by simp, State.whenSelected_eq_refused.mp h⟩
  | iterHold => exact ⟨by simp, State.whenSelected_eq_refused.mp h⟩
  | iterStepFwd => exact ⟨by simp, State.whenSelected_eq_refused.mp h⟩
  | iterStepBwd => exact ⟨by simp, State.whenSelected_eq_refused.mp h⟩

/-- What the selected LOOP operation does, by phase and flags. -/
theorem exec_loopStep (s : State) :
    exec s.loopStep s = .next
      (match s.phase, s.enabled with
        | .delay, _ => s.setPhase .ready
        | .ready, false => s.emit 0x0#4
        | .ready, true => s.stepTo (nextIndex s.stepIndex s.direction)) := by
  rcases s.loopStep_cases with ⟨hp, h⟩ | ⟨hp, he, h⟩ | ⟨hp, he, hd, h⟩ | ⟨hp, he, hd, h⟩
  · rw [h, hp]; exact State.whenSelected_of h
  · rw [h, hp, he]; exact State.whenSelected_of h
  · rw [h, hp, he, hd]; exact State.whenSelected_of h
  · rw [h, hp, he, hd]; exact State.whenSelected_of h

/-- An event completes in every state; by the code it carries. -/
theorem exec_decodeEvt (code : Nat) (s : State) :
    exec (decodeEvt code) s = .next
      (if code = 0x04 then s.setEnabled true else if code = 0x08 then s.setEnabled false
        else if code = 0x10 then s.toggleDirection else s) := by
  unfold decodeEvt
  split
  · rfl
  · split
    · rfl
    · split
      · rfl
      · split <;> rfl

end Sys2Proof.Machine
end

