-- ==== Sys2Proof/Laws/PerInstr.lean ====
section
/-! SUPPORT. A statement made of every operation as it is written: its word belongs to its agent's format, and is a
word of that format where the operation is well-formed. -/

namespace Sys2Proof.Laws.EncodeWord

open Sys2Proof Sys2Proof.Machine

/-- An EVT operation is encoded as a status code of the block's width, a LOOP operation as a selector
(spec 30_encoding.md R61). -/
def Statement (i : Instr) : Prop :=
  i.WellFormed = true →
    (encode i).WellFormed = true ∧
    (IsEvtOp i = true ↔ ∃ code, encode i = .evt code) ∧
    (IsLoopOp i = true ↔ ∃ sel, encode i = .loop sel)

theorem evtEnable : Statement .evtEnable := by simp [Statement, encode, IsEvtOp, IsLoopOp, OpWord.WellFormed, Config.STATUS_W]

theorem evtDisable : Statement .evtDisable := by simp [Statement, encode, IsEvtOp, IsLoopOp, OpWord.WellFormed, Config.STATUS_W]

theorem evtToggleDir : Statement .evtToggleDir := by simp [Statement, encode, IsEvtOp, IsLoopOp, OpWord.WellFormed, Config.STATUS_W]

theorem evtReserved : Statement .evtReserved := by simp [Statement, encode, IsEvtOp, IsLoopOp, OpWord.WellFormed, Config.STATUS_W]

theorem evtOther (code : Nat) : Statement (.evtOther code) := by
  intro h
  simp only [Instr.WellFormed, Instr.WellFormedAt, Bool.and_eq_true] at h
  exact ⟨h.1, by simp [encode, IsEvtOp, IsLoopOp], by simp [encode, IsLoopOp]⟩

theorem delayDone : Statement .delayDone := by simp [Statement, encode, IsEvtOp, IsLoopOp, OpWord.WellFormed]

theorem iterHold : Statement .iterHold := by simp [Statement, encode, IsEvtOp, IsLoopOp, OpWord.WellFormed]

theorem iterStepFwd : Statement .iterStepFwd := by simp [Statement, encode, IsEvtOp, IsLoopOp, OpWord.WellFormed]

theorem iterStepBwd : Statement .iterStepBwd := by simp [Statement, encode, IsEvtOp, IsLoopOp, OpWord.WellFormed]

end Sys2Proof.Laws.EncodeWord
end

