-- ==== Sys2Proof/Laws/Turns.lean ====
section
/-! SUPPORT. Turns and lists of turns at the event level. -/

namespace Sys2Proof.Machine

variable {s t : State}

/-- A turn that answers a next state is a reset, another writer's store, or an operation that answers it. -/
theorem takeTurn_cases {r : Turn} (h : takeTurn r s = .next t) :
    (r = .reset ∧ t = s.resetBlock) ∨ (∃ bits, r = .platformWrite bits ∧ t = s.setOutUpper bits) ∨
    (∃ i, r.instr s = some i ∧ exec i s = .next t) := by
  cases r with
  | reset => cases h; simp
  | platformWrite bits => cases h; simp
  | evt code => exact .inr (.inr ⟨_, rfl, h⟩)
  | iter => exact .inr (.inr ⟨_, rfl, h⟩)
  | hold => exact .inr (.inr ⟨_, rfl, h⟩)
  | fwd => exact .inr (.inr ⟨_, rfl, h⟩)
  | bwd => exact .inr (.inr ⟨_, rfl, h⟩)
  | done => exact .inr (.inr ⟨_, rfl, h⟩)

/-- A turn that names no LOOP step answers a next state in every state. -/
theorem takeTurn_unnamed (r : Turn) (s : State) : ∃ t, takeTurn r.unnamed s = .next t := by
  cases r with
  | reset => exact ⟨_, rfl⟩
  | platformWrite bits => exact ⟨_, rfl⟩
  | evt code => exact ⟨_, exec_decodeEvt code s⟩
  | iter | hold | fwd | bwd | done => exact ⟨_, exec_loopStep s⟩

@[simp] theorem Turn.unnamed_unnamed (r : Turn) : r.unnamed.unnamed = r.unnamed := by cases r <;> rfl

@[simp] theorem nextTurn_cons (r : Turn) (rs : List Turn) (tail : Tail Turn) :
    nextTurn ⟨r :: rs, tail⟩ = (r, ⟨rs, tail⟩) := rfl

@[simp] theorem nextTurn_silent : nextTurn ⟨[], .silent⟩ = (.iter, ⟨[], .silent⟩) := rfl

@[simp] theorem nextTurn_repeating (r : Turn) (rs : List Turn) :
    nextTurn ⟨[], .repeating r rs⟩ = (r, ⟨rs, .repeating r rs⟩) := rfl

@[simp] theorem nextTurn_free (stream position : Nat) :
    nextTurn ⟨[], .free stream position⟩ =
      ((Config.freeTurn stream position).unnamed, ⟨[], .free stream (position + 1)⟩) := rfl

@[simp] theorem runTurns_nil : runTurns [] s = .next s := rfl

/-- A run of a turn and more turns, when the turn answers a next state. -/
theorem runTurns_cons_next {r : Turn} {rs : List Turn} (h : takeTurn r s = .next t) :
    runTurns (r :: rs) s = runTurns rs t := by
  simp only [runTurns, h]

/-- A list of turns then another, when the first answers a next state. -/
theorem runTurns_append_next {rs qs : List Turn} (h : runTurns rs s = .next t) :
    runTurns (rs ++ qs) s = runTurns qs t := by
  induction rs generalizing s with
  | nil => cases h; rfl
  | cons r rs ih =>
    simp only [runTurns, List.cons_append] at h ⊢
    cases hr : takeTurn r s with
    | next u => simp only [hr] at h ⊢; exact ih h
    | fault f => simp [hr] at h
    | refused e => simp [hr] at h

/-- A run in two parts answers a next state only through one in between. -/
theorem runTurns_append_inv {rs qs : List Turn} (h : runTurns (rs ++ qs) s = .next t) :
    ∃ u, runTurns rs s = .next u ∧ runTurns qs u = .next t := by
  induction rs generalizing s with
  | nil => exact ⟨s, rfl, h⟩
  | cons r rs ih =>
    simp only [runTurns, List.cons_append] at h ⊢
    cases hr : takeTurn r s with
    | next u => simp only [hr] at h ⊢; exact ih h
    | fault f => simp [hr] at h
    | refused e => simp [hr] at h

end Sys2Proof.Machine
end

