-- ==== Sys2Proof/Laws/Step.lean ====
section
/-! SUPPORT. Everything a step of the machine can do, said once. -/

namespace Sys2Proof.Machine

variable {s t : State}

/-- A step at the event level takes the next turn. -/
theorem step_events {turns : Schedule Turn} (h : s.env = .events turns) :
    step s = takeTurn (nextTurn turns).1 (s.setEnv (.events (nextTurn turns).2)) := by
  unfold step; rw [h]; rfl

/-- A step at the clocked level takes the next input. -/
theorem step_clocked {inputs : Schedule ClockInput} (h : s.env = .clocked inputs) :
    step s = .next (takeClockInput delayCycles (nextInput inputs).1 (s.setEnv (.clocked (nextInput inputs).2))) := by
  unfold step; rw [h]; rfl

/-- If a step answers a next state, it is an operation's, a reset's, another writer's store or a clock edge's, on the
state with only its environment moved on. -/
theorem step_next_cases (h : step s = .next t) :
    ∃ e, (∃ i, exec i (s.setEnv e) = .next t) ∨ t = (s.setEnv e).resetBlock ∨
      (∃ bits, t = (s.setEnv e).setOutUpper bits) ∨ (∃ p, t = clockEdge delayCycles p (s.setEnv e)) := by
  cases he : s.env with
  | events turns =>
    rw [step_events he] at h
    refine ⟨.events (nextTurn turns).2, ?_⟩
    rcases takeTurn_cases h with ⟨_, rfl⟩ | ⟨bits, _, rfl⟩ | ⟨i, _, hx⟩
    · exact .inr (.inl rfl)
    · exact .inr (.inr (.inl ⟨bits, rfl⟩))
    · exact .inl ⟨i, hx⟩
  | clocked inputs =>
    rw [step_clocked he] at h
    cases h
    refine ⟨.clocked (nextInput inputs).2, ?_⟩
    cases (nextInput inputs).1 with
    | edge p => exact .inr (.inr (.inr ⟨p, rfl⟩))
    | platformWrite bits => exact .inr (.inr (.inl ⟨bits, rfl⟩))

/-- No operation touches the environment. -/
theorem exec_env {i : Instr} (h : exec i s = .next t) : t.env = s.env := by
  rcases exec_next_cases h with ⟨_, rfl⟩ | ⟨_, rfl⟩ | ⟨_, rfl⟩ | ⟨_, rfl⟩ | ⟨_, _, rfl⟩ | ⟨_, _, rfl⟩ | ⟨_, _, rfl⟩ |
    ⟨_, _, rfl⟩ <;> rfl

/-- No clock edge touches the environment. -/
theorem clockEdge_env (dc : Nat) (p : Ports) (s : State) : (clockEdge dc p s).env = s.env := by
  cases hr : p.rst
  · rw [clockEdge_run hr, clockEvtPart_frame]
    exact (clockLoopPart_frame dc s).2.2.2
  · rw [clockEdge_reset hr]
    rfl

/-- No turn touches the environment. -/
theorem takeTurn_env {r : Turn} (h : takeTurn r s = .next t) : t.env = s.env := by
  rcases takeTurn_cases h with ⟨_, rfl⟩ | ⟨_, _, rfl⟩ | ⟨_, _, hx⟩
  · rfl
  · rfl
  · exact exec_env hx

/-- An operation does the same whatever the environment: a next state. -/
theorem exec_setEnv {i : Instr} (e : Environment) (h : exec i s = .next t) :
    exec i (s.setEnv e) = .next (t.setEnv e) := by
  rcases exec_next_cases h with ⟨rfl, rfl⟩ | ⟨rfl, rfl⟩ | ⟨rfl, rfl⟩ | ⟨rfl | ⟨_, rfl⟩, rfl⟩ | ⟨rfl, hl, rfl⟩ |
    ⟨rfl, hl, rfl⟩ | ⟨rfl, hl, rfl⟩ | ⟨rfl, hl, rfl⟩
  iterate 5 rfl
  all_goals exact State.whenSelected_of (s := s.setEnv e) hl

/-- An operation does the same whatever the environment: a refusal. -/
theorem exec_setEnv_refused {i : Instr} {r : Refusal} (e : Environment) (h : exec i s = .refused r) :
    exec i (s.setEnv e) = .refused r := by
  obtain ⟨rfl | rfl | rfl | rfl, hn, rfl⟩ := exec_refused_cases h
  all_goals exact State.whenSelected_refused (s := s.setEnv e) hn

/-- A turn does the same whatever the environment. -/
theorem takeTurn_setEnv {r : Turn} (e : Environment) (h : takeTurn r s = .next t) :
    takeTurn r (s.setEnv e) = .next (t.setEnv e) := by
  cases r with
  | reset => cases h; rfl
  | platformWrite bits => cases h; rfl
  | evt code => exact exec_setEnv e h
  | iter => exact exec_setEnv e h
  | hold => exact exec_setEnv (i := .iterHold) e h
  | fwd => exact exec_setEnv (i := .iterStepFwd) e h
  | bwd => exact exec_setEnv (i := .iterStepBwd) e h
  | done => exact exec_setEnv (i := .delayDone) e h

/-- A turn does the same whatever the environment: a refusal. -/
theorem takeTurn_setEnv_refused {r : Turn} {q : Refusal} (e : Environment) (h : takeTurn r s = .refused q) :
    takeTurn r (s.setEnv e) = .refused q := by
  cases r with
  | reset => cases h
  | platformWrite bits => cases h
  | evt code => exact exec_setEnv_refused e h
  | iter => exact exec_setEnv_refused e h
  | hold => exact exec_setEnv_refused (i := .iterHold) e h
  | fwd => exact exec_setEnv_refused (i := .iterStepFwd) e h
  | bwd => exact exec_setEnv_refused (i := .iterStepBwd) e h
  | done => exact exec_setEnv_refused (i := .delayDone) e h

/-- A list of turns does the same whatever the environment. -/
theorem runTurns_setEnv {rs : List Turn} (e : Environment) (h : runTurns rs s = .next t) :
    runTurns rs (s.setEnv e) = .next (t.setEnv e) := by
  induction rs generalizing s with
  | nil => cases h; rfl
  | cons r rs ih =>
    cases hr : takeTurn r s with
    | next u => rw [runTurns_cons_next (takeTurn_setEnv e hr)]; rw [runTurns_cons_next hr] at h; exact ih h
    | fault f => cases f
    | refused q => simp [runTurns, hr] at h

/-- The LOOP part of an edge does the same whatever the environment. -/
theorem clockLoopPart_setEnv (dc : Nat) (s : State) (e : Environment) :
    clockLoopPart dc (s.setEnv e) = (clockLoopPart dc s).setEnv e := by
  cases hp : s.phase
  · cases he : s.enabled
    · rw [clockLoopPart_hold hp he]
      exact clockLoopPart_hold (s := s.setEnv e) hp he
    · rw [clockLoopPart_step hp he]
      exact clockLoopPart_step (s := s.setEnv e) hp he
  · by_cases hc : 1 < s.delayCnt
    · rw [clockLoopPart_count hp hc]
      exact clockLoopPart_count (s := s.setEnv e) hp hc
    · rw [clockLoopPart_done hp hc]
      exact clockLoopPart_done (s := s.setEnv e) hp hc

/-- A clock edge does the same whatever the environment. -/
theorem clockEdge_setEnv (dc : Nat) (p : Ports) (s : State) (e : Environment) :
    clockEdge dc p (s.setEnv e) = (clockEdge dc p s).setEnv e := by
  unfold clockEdge
  split
  · rfl
  · rw [clockLoopPart_setEnv]
    unfold clockEvtPart
    split
    · cases decodeEvt p.evtCode <;> rfl
    · rfl

/-- A clocked input does the same whatever the environment. -/
theorem takeClockInput_setEnv (dc : Nat) (c : ClockInput) (s : State) (e : Environment) :
    takeClockInput dc c (s.setEnv e) = (takeClockInput dc c s).setEnv e := by
  cases c with
  | edge p => exact clockEdge_setEnv dc p s e
  | platformWrite bits => rfl

/-- No clocked input touches the environment. -/
theorem takeClockInput_env (dc : Nat) (c : ClockInput) (s : State) : (takeClockInput dc c s).env = s.env := by
  cases c with
  | edge p => exact clockEdge_env dc p s
  | platformWrite bits => rfl

end Sys2Proof.Machine
end

