-- ==== Sys2Proof/Laws/Run.lean ====
section
/-! SUPPORT. Runs of the machine: one step and the rest, and the induction over a run, packaged once. -/

namespace Sys2Proof.Machine

variable {s t u : State} {n : Nat}

@[simp] theorem run_zero (s : State) : Host.Core.run core 0 s = Host.Outcome.next s := rfl

/-- A run whose first step answers a next state goes on from it. -/
theorem run_succ_of_next (h : step s = .next t) : Host.Core.run core (n + 1) s = Host.Core.run core n t := by
  have hs : core.step s = _ := h
  refine (Host.Core.run.eq_2 core s n).trans ?_
  rw [hs]

/-- A run whose first step is refused is refused. -/
theorem run_succ_of_refused {r : Refusal} (h : step s = .refused r) :
    Host.Core.run core (n + 1) s = Host.Outcome.refused r := by
  have hs : core.step s = _ := h
  refine (Host.Core.run.eq_2 core s n).trans ?_
  rw [hs]
  rfl

/-- A run that answers a next state goes through a first step that does. -/
theorem run_succ_inv (h : Host.Core.run core (n + 1) s = .next t) :
    ∃ u, step s = .next u ∧ Host.Core.run core n u = .next t := by
  cases hs : step s with
  | next u => exact ⟨u, rfl, run_succ_of_next (n := n) hs ▸ h⟩
  | fault f => cases f
  | refused r => rw [run_succ_of_refused hs] at h; cases h

/-- A run at the event level whose next turn answers a next state goes on from it with the rest of the schedule. -/
theorem run_events_next {σ τ : Schedule Turn} {r : Turn} (hσ : nextTurn σ = (r, τ)) (h : takeTurn r s = .next t) :
    Host.Core.run core (n + 1) (s.setEnv (.events σ)) = Host.Core.run core n (t.setEnv (.events τ)) := by
  have hs := step_events (s := s.setEnv (.events σ)) rfl
  rw [hσ] at hs
  exact run_succ_of_next (hs.trans (takeTurn_setEnv (s := s) _ h))

/-- A run at the event level whose next turn is refused is refused. -/
theorem run_events_refused {σ τ : Schedule Turn} {r : Turn} {q : Refusal} (hσ : nextTurn σ = (r, τ))
    (h : takeTurn r s = .refused q) : Host.Core.run core (n + 1) (s.setEnv (.events σ)) = Host.Outcome.refused q := by
  have hs := step_events (s := s.setEnv (.events σ)) rfl
  rw [hσ] at hs
  exact run_succ_of_refused (hs.trans (takeTurn_setEnv_refused (s := s) _ h))

/-- A run at the clocked level goes on from the state after the next input with the rest of the sequence. -/
theorem run_clocked {σ τ : Schedule ClockInput} {c : ClockInput} (hσ : nextInput σ = (c, τ)) (s : State) :
    Host.Core.run core (n + 1) (s.setEnv (.clocked σ)) =
      Host.Core.run core n ((takeClockInput delayCycles c s).setEnv (.clocked τ)) := by
  have hs := step_clocked (s := s.setEnv (.clocked σ)) rfl
  rw [hσ] at hs
  exact run_succ_of_next (hs.trans (congrArg _ (takeClockInput_setEnv delayCycles c s _)))

/-- What a state satisfies and every step keeps, every state of a run from it satisfies. -/
theorem run_induction {P : State → Prop} (hstep : ∀ s t, P s → step s = .next t → P t) :
    ∀ (n : Nat) (s t : State), P s → Host.Core.run core n s = .next t → P t := by
  intro n
  induction n with
  | zero => intro s t hs h; cases h; exact hs
  | succ n ih =>
    intro s t hs h
    obtain ⟨u, hu, hr⟩ := run_succ_inv h
    exact ih u t (hstep s u hs hu) hr

end Sys2Proof.Machine
end

