-- ==== Sys2Proof/Tests/Slice0.lean ====
section
/-! SUPPORT. Tests of single steps against the vectors of spec 95_test_vectors.md, decode tests from words written out
from 30_encoding.md, and one witness for every statement that has hypotheses. -/

namespace Sys2Proof.Tests

open Sys2Proof Sys2Proof.Machine

/-- The vectors' state notation: step_index, enabled, direction, coil, phase. -/
def st (i : Nat) (e d : Bool) (c : Pattern) (p : Phase) : State :=
  { State.reset with stepIndex := i, enabled := e, direction := d, coil := c, phase := p }

/-- The clocked traces' notation: `st` and delay_cnt. -/
def stc (i : Nat) (e d : Bool) (c : Pattern) (p : Phase) (n : Nat) : State := (st i e d c p).setDelayCnt n

/-- The outcome is this next state. -/
def answers (o : Host.Outcome State Fault Refusal) (t : State) : Bool :=
  match o with
  | .next u => decide (u = t)
  | .fault _ => false
  | .refused _ => false

/-- The outcome is this refusal. -/
def refuses (o : Host.Outcome State Fault Refusal) (r : Refusal) : Bool :=
  match o with
  | .next _ => false
  | .fault _ => false
  | .refused q => decide (q = r)

/-! ### WellFormed: one ill-formed term for each check (R63) -/

theorem test_wellFormed_other : (Instr.evtOther 0xFF).WellFormed = true := by decide
theorem test_illFormed_code_too_wide : (Instr.evtOther 0x100000000).WellFormed = false := by decide
theorem test_illFormed_code_of_a_button : (Instr.evtOther 0x10).WellFormed = false := by decide
theorem test_illFormed_word : (OpWord.evt 0x100000000).WellFormed = false := by decide

/-! ### Decode: words written out bit by bit from R62, R63, R65 -/

theorem test_decode_events :
    decode (.evt 0b00000000000000000000000000000100) = .evtEnable ∧
    decode (.evt 0b00000000000000000000000000001000) = .evtDisable ∧
    decode (.evt 0b00000000000000000000000000010000) = .evtToggleDir ∧
    decode (.evt 0b00000000000000000000000000100000) = .evtReserved := by decide
/-- 95 V3: several buttons, a foreign bit, the zero code. -/
theorem test_decode_other :
    decode (.evt 0x00) = .evtOther 0x00 ∧ decode (.evt 0x0C) = .evtOther 0x0C ∧ decode (.evt 0x05) = .evtOther 0x05 ∧
    decode (.evt 0x44) = .evtOther 0x44 ∧ decode (.evt 0x104) = .evtOther 0x104 ∧
    decode (.evt 0xFFFFFFFF) = .evtOther 0xFFFFFFFF := by decide
theorem test_decode_loop :
    decode (.loop 0b100#3) = .delayDone ∧ decode (.loop 0b111#3) = .delayDone ∧ decode (.loop 0b000#3) = .iterHold ∧
    decode (.loop 0b001#3) = .iterHold ∧ decode (.loop 0b010#3) = .iterStepFwd ∧
    decode (.loop 0b011#3) = .iterStepBwd := by decide
theorem test_decodeBytes_rejects :
    (match decodeBytes [0x08#8] with | .error e => decide (e = .selectorTooWide 8) | .ok _ => false) = true ∧
    (match decodeBytes [0x04#8, 0x00#8] with | .error e => decide (e = .wrongLength 2) | .ok _ => false) = true := by
  decide
theorem test_decodeTableWord :
    decodeTableWord 32 0x10 = some .evtToggleDir ∧ decodeTableWord 32 0x01000004 = some (.evtOther 0x01000004) ∧
    decodeTableWord 8 0b011 = some .iterStepBwd ∧ decodeTableWord 8 0b1000 = none := by decide

/-! ### One step of each operation (95 V5, V6) -/

/-- L2, L3: the index is kept, in range or not. -/
theorem test_iterHold :
    answers (exec .iterHold (st 5 false true 0xC#4 .ready)) (st 5 false true 0x0#4 .ready) = true ∧
    answers (exec .iterHold (st 9 false false 0x0#4 .ready)) (st 9 false false 0x0#4 .ready) = true := by decide
/-- L4, L5, L6: the first step, the wrap, a corrupted index. -/
theorem test_iterStepFwd :
    answers (exec .iterStepFwd (st 0 true false 0x0#4 .ready)) (st 1 true false 0x3#4 .delay) = true ∧
    answers (exec .iterStepFwd (st 7 true false 0x9#4 .ready)) (st 0 true false 0x1#4 .delay) = true ∧
    answers (exec .iterStepFwd (st 12 true false 0x0#4 .ready)) (st 1 true false 0x3#4 .delay) = true := by decide
/-- L7, L8, L9. -/
theorem test_iterStepBwd :
    answers (exec .iterStepBwd (st 0 true true 0x1#4 .ready)) (st 7 true true 0x9#4 .delay) = true ∧
    answers (exec .iterStepBwd (st 4 true true 0x4#4 .ready)) (st 3 true true 0x6#4 .delay) = true ∧
    answers (exec .iterStepBwd (st 12 true true 0x0#4 .ready)) (st 7 true true 0x9#4 .delay) = true := by decide
/-- L10, L11, L12: whatever the flags. -/
theorem test_delayDone :
    answers (exec .delayDone (st 3 true false 0x6#4 .delay)) (st 3 true false 0x6#4 .ready) = true ∧
    answers (exec .delayDone (st 3 false false 0x6#4 .delay)) (st 3 false false 0x6#4 .ready) = true ∧
    answers (exec .delayDone (st 3 false true 0x6#4 .delay)) (st 3 false true 0x6#4 .ready) = true := by decide
/-- R70: a line that names another LOOP step than the selected one is ill-formed. -/
theorem test_unselected_refused :
    refuses (exec .iterStepFwd (st 0 true true 0x0#4 .ready)) (.loopStepNotSelected .iterStepFwd .iterStepBwd) = true ∧
    refuses (exec .iterHold (st 3 false false 0x6#4 .delay)) (.loopStepNotSelected .iterHold .delayDone) = true := by
  decide
/-- E1, E2. -/
theorem test_evtEnable :
    answers (exec .evtEnable (st 4 false true 0x0#4 .ready)) (st 4 true true 0x0#4 .ready) = true ∧
    answers (exec .evtEnable (st 4 true true 0x6#4 .delay)) (st 4 true true 0x6#4 .delay) = true := by decide
/-- E3, E4. -/
theorem test_evtDisable :
    answers (exec .evtDisable (st 2 true false 0x2#4 .delay)) (st 2 false false 0x2#4 .delay) = true ∧
    answers (exec .evtDisable (st 2 false false 0x0#4 .ready)) (st 2 false false 0x0#4 .ready) = true := by decide
/-- E5, E6. -/
theorem test_evtToggleDir :
    answers (exec .evtToggleDir (st 0 true false 0x1#4 .ready)) (st 0 true true 0x1#4 .ready) = true ∧
    answers (exec .evtToggleDir (st 0 true true 0x1#4 .delay)) (st 0 true false 0x1#4 .delay) = true := by decide
/-- E8. -/
theorem test_evtReserved :
    answers (exec .evtReserved (st 6 true false 0x8#4 .delay)) (st 6 true false 0x8#4 .delay) = true := by decide
/-- E9, E10. -/
theorem test_evtOther :
    answers (exec (decodeEvt 0xFF) (st 6 true false 0x8#4 .delay)) (st 6 true false 0x8#4 .delay) = true ∧
    answers (exec (decodeEvt 0x0C) (st 6 true false 0x8#4 .delay)) (st 6 true false 0x8#4 .delay) = true := by decide

/-! ### Operations (95 V1, V2, V4) and the clocked realisation (95 V7) -/

theorem test_normIndex : (normIndex 7).val = 7 ∧ (normIndex 8).val = 0 ∧ (normIndex 15).val = 0 := by decide
theorem test_nextIndex_corrupted :
    (nextIndex 13 false).val = 1 ∧ (nextIndex 13 true).val = 7 ∧ rom (nextIndex 6 false) = 0x9#4 := by decide
theorem test_outMerge :
    outMerge 0xA5#8 0x3#4 = 0xA3#8 ∧ outMerge 0xAF#8 0x0#4 = 0xA0#8 ∧ outMerge 0x12345678#32 0x1#4 = 0x12345671#32 ∧
    outMerge 0x7#4 0x6#4 = 0x6#4 := by decide
theorem test_delayCyclesOf : delayCyclesOf 1200 2500 = 3 ∧ delayCyclesOf 1000 1000 = 1 := by
  simp [delayCyclesOf, ceilDiv]
/-- V7, edges 0, 2, 3, 4 and 5 of the first trace (DELAY_CYCLES = 3). -/
theorem test_clockEdge_three :
    clockEdge 3 ⟨true, true, 0x04⟩ (st 5 true true 0x9#4 .delay) = stc 0 false false 0x0#4 .ready 0 ∧
    clockEdge 3 ⟨false, false, 0⟩ (stc 0 true false 0x0#4 .ready 0) = stc 1 true false 0x3#4 .delay 2 ∧
    clockEdge 3 ⟨false, true, 0x10⟩ (stc 1 true false 0x3#4 .delay 2) = stc 1 true true 0x3#4 .delay 1 ∧
    clockEdge 3 ⟨false, false, 0⟩ (stc 1 true true 0x3#4 .delay 1) = stc 1 true true 0x3#4 .ready 0 ∧
    clockEdge 3 ⟨false, true, 0x08⟩ (stc 1 true true 0x3#4 .ready 0) = stc 0 false true 0x1#4 .delay 2 := by decide
/-- V7, edges 4 and 5 of the second trace (DELAY_CYCLES = 1: DELAY_DONE is folded into the stepping edge). -/
theorem test_clockEdge_one :
    clockEdge 1 ⟨false, true, 0x10⟩ (stc 2 true false 0x2#4 .ready 0) = stc 3 true true 0x6#4 .ready 0 ∧
    clockEdge 1 ⟨false, false, 0⟩ (stc 3 true true 0x6#4 .ready 0) = stc 2 true true 0x2#4 .ready 0 := by decide
/-- R70: STEP is ITER then DONE; BTN2 is EVT 0x10. -/
theorem test_pseudo_instructions :
    Program.steps 2 = [.iter, .done, .iter, .done] ∧ Program.run 2 = [.iter, .iter] ∧ Program.btn2 = [.evt 0x10] := by
  decide
/-- A placed word runs as the first instruction after reset, in each format. -/
theorem test_placed_words :
    answers (step (State.reset.withFetchWord 32 0x04)) (st 0 true false 0x0#4 .ready) = true ∧
    answers (step (State.reset.withFetchWord 8 0b011)) (st 7 true true 0x9#4 .delay) = true ∧
    answers (step (State.reset.withFetchWord 8 0b100)) (st 0 false false 0x0#4 .ready) = true := by decide

/-! ### Witnesses: states and operands that meet each statement's hypotheses -/

theorem witness_IterHoldForcesCoilsToZero :
    (st 5 false true 0xC#4 .ready).phase = .ready ∧ (st 5 false true 0xC#4 .ready).enabled = false := by decide
/-- At the wrap and at a corrupted index; the last clause's entry at the wrap. -/
theorem witness_IterStepFwdAdvancesAndEmits :
    (∀ i ∈ [7, 12], (st i true false 0x9#4 .ready).phase = .ready ∧ (st i true false 0x9#4 .ready).enabled = true ∧
      (st i true false 0x9#4 .ready).direction = false) ∧
    romListing[(st 7 true false 0x9#4 .ready).stepIndex]? = some 0x9#4 := by decide
theorem witness_IterStepBwdRetreatsAndEmits :
    ∀ i ∈ [0, 4, 7, 8], (st i true true 0x1#4 .ready).phase = .ready ∧ (st i true true 0x1#4 .ready).enabled = true ∧
      (st i true true 0x1#4 .ready).direction = true := by decide
theorem witness_DelayDoneOnlyEndsTheDelay : (st 3 false false 0x6#4 .delay).phase = .delay := by decide
theorem witness_UnselectedLoopStepIsRefused :
    IsLoopOp .iterStepFwd = true ∧ Instr.iterStepFwd ≠ State.reset.loopStep := by decide
theorem witness_ExactlyOneLoopStepIsEnabled :
    IsLoopOp .iterHold = true ∧ (∃ t, exec .iterHold State.reset = .next t) ∧
    (State.reset.setEnv (.events ⟨[], .silent⟩)).env = .events ⟨[], .silent⟩ :=
  ⟨rfl, ⟨_, rfl⟩, rfl⟩
theorem witness_DisabledIterationsEmitZero :
    State.reset.enabled = false ∧ (∃ t, exec .iterHold State.reset = .next t) ∧
    (st 3 true false 0x6#4 .delay).phase = .delay :=
  ⟨rfl, ⟨_, rfl⟩, rfl⟩
theorem witness_LoopStepsNeverWriteTheFlags :
    IsLoopOp .iterStepBwd = true ∧ (∃ t, exec .iterStepBwd (st 0 true true 0x1#4 .ready) = .next t) :=
  ⟨rfl, ⟨_, rfl⟩⟩
theorem witness_EvtEnableSetsEnabledOnly : (st 4 false true 0x0#4 .ready).phase = .ready := by decide
theorem witness_EvtDisableClearsEnabledOnly :
    (st 2 true false 0x2#4 .ready).phase = .ready ∧ (st 2 true false 0x2#4 .delay).phase = .delay := by decide
theorem witness_EvtToggleDirComplementsDirectionOnly :
    (st 0 true false 0x1#4 .ready).phase = .ready ∧ (st 0 true false 0x1#4 .ready).enabled = true := by decide
theorem witness_EvtOtherHasNoEffect :
    ∀ c ∈ [0x00, 0x05, 0x0C, 0x21], c ≠ 0x04 ∧ c ≠ 0x08 ∧ c ≠ 0x10 ∧ c ≠ 0x20 := by decide
theorem witness_EvtFootprintIsOneFlag :
    IsEvtOp .evtToggleDir = true ∧ (st 5 false false 0x9#4 .delay).enabled = State.reset.enabled ∧
    (st 5 false false 0x9#4 .delay).direction = State.reset.direction ∧
    (∃ t, exec .evtToggleDir (st 5 false false 0x9#4 .delay) = .next t) :=
  ⟨rfl, rfl, rfl, ⟨_, rfl⟩⟩
theorem witness_EventOperationLaws :
    (0x20 ≠ 0x04 ∧ 0x20 ≠ 0x08 ∧ 0x20 ≠ 0x10) ∧ (st 3 true false 0x6#4 .delay).phase = .delay := by decide
/-- Each clause's field is changed by some operation. -/
theorem witness_EachFieldHasItsWriters :
    (∃ t, exec .evtEnable State.reset = .next t ∧ t.enabled ≠ State.reset.enabled) ∧
    (∃ t, exec .evtToggleDir State.reset = .next t ∧ t.direction ≠ State.reset.direction) ∧
    (∃ t, exec .iterStepFwd (st 0 true false 0x0#4 .ready) = .next t ∧ t.stepIndex ≠ 0 ∧ t.coil ≠ 0x0#4 ∧
      t.phase ≠ .ready ∧ t.phase = .delay) ∧
    (∃ t, exec .delayDone (st 3 true false 0x6#4 .delay) = .next t ∧ t.phase ≠ .delay ∧ t.phase = .ready) :=
  ⟨⟨_, rfl, by decide⟩, ⟨_, rfl, by decide⟩, ⟨_, rfl, by decide⟩, ⟨_, rfl, by decide⟩⟩
/-- At the narrowest register and its largest index. -/
theorem witness_NoStepWritesAnIndexOutOfRange :
    (∃ t, step ((st 7 true false 0x9#4 .ready).setEnv (.events ⟨[], .silent⟩)) = .next t) ∧ 3 ≤ 3 ∧ (st 7 true false 0x9#4 .ready).stepIndex < 2 ^ 3 :=
  ⟨⟨_, rfl⟩, by decide, by decide⟩
theorem witness_NextIndexNormalisesThenMoves : 8 ≤ 8 ∧ 7 < 8 := by decide
theorem witness_OutMergeWritesOwnedBitsOnly : 4 ≤ 4 ∧ State.reset.outReg 4 = State.reset.outReg 4 := ⟨by decide, rfl⟩
theorem witness_EmissionMergesTheSharedRegister :
    4 ≤ 4 ∧ (∃ t, exec .iterHold State.reset = .next t) ∧ (∃ t, exec .evtEnable State.reset = .next t) :=
  ⟨by decide, ⟨_, rfl⟩, ⟨_, rfl⟩⟩
theorem witness_UpperBitWritesCommuteWithTheBlock : ∃ t, exec .iterHold State.reset = .next t := ⟨_, rfl⟩
theorem witness_SoftwareWriteBackCanLoseAnUpdate : 4 ≤ 4 ∧ 4 < 5 := by decide
theorem witness_EventDecodeComparesWholeCodes : 6 ≤ 6 := by decide
/-- Each of the three cases. -/
theorem witness_MultiButtonAndForeignBitsAreOther :
    Nat.testBit 0x0C 2 = true ∧ Nat.testBit 0x0C 3 = true ∧ Nat.testBit 0x30 5 = true ∧ Nat.testBit 0x05 0 = true ∧
    Nat.testBit 0x44 6 = true := by decide
theorem witness_DecodeAndEncodeAgree :
    (Instr.evtOther 0xFF).WellFormed = true ∧ (OpWord.evt 0xFFFFFFFF).WellFormed = true := by decide
/-- Each clause's environment, a listed, a silent, a periodic and a free one among them. -/
theorem witness_StepRunsTheNextTurn :
    (∀ σ : Schedule Turn, (State.reset.setEnv (.events σ)).env = .events σ) ∧
    (∀ σ : Schedule ClockInput, (State.reset.setEnv (.clocked σ)).env = .clocked σ) ∧
    nextTurn ⟨[], .silent⟩ = (.iter, ⟨[], .silent⟩) ∧ Turn.iter.instr State.reset = some .iterHold ∧
    nextTurn ⟨[.reset], .free 0 0⟩ = (.reset, ⟨[], .free 0 0⟩) ∧
    nextTurn ⟨[], .repeating (.platformWrite 3) [.iter]⟩ = (.platformWrite 3, ⟨[.iter], .repeating (.platformWrite 3) [.iter]⟩) ∧
    nextInput ⟨[], .silent⟩ = (.edge .quiet, ⟨[], .silent⟩) ∧
    nextInput ⟨[.platformWrite 3], .silent⟩ = (.platformWrite 3, ⟨[], .silent⟩) :=
  ⟨fun _ => rfl, fun _ => rfl, rfl, rfl, rfl, rfl, rfl, rfl⟩
/-- An endless sequence of toggles with no LOOP turn at all. -/
theorem witness_EveryInfiniteSequenceHasARun : ∀ n : Nat, (fun _ => Turn.evt 0x10) n ∉ [Turn.hold, .fwd, .bwd, .done] :=
  fun _ => by simp
/-- The stop: an ill-formed line is next, listed or repeated. -/
theorem witness_OnlyIllFormedLinesStop :
    refuses (step (State.reset.setEnv (.events ⟨[.fwd], .silent⟩))) (.loopStepNotSelected .iterStepFwd .iterHold) = true ∧
    refuses (step (State.reset.setEnv (.events ⟨[], .repeating .done []⟩))) (.loopStepNotSelected .delayDone .iterHold) =
      true := by decide
theorem witness_PlacedWordRunsNext :
    decodeTableWord 32 0x04 = some .evtEnable ∧ 8 < 32 ∧ decodeTableWord 8 0b010 = some .iterStepFwd := by decide
theorem witness_SplitIterationHasAnAtomicRun :
    (st 2 true false 0x2#4 .ready).phase = .ready ∧
    (∃ u, runTurns (evts [0x08, 0x10]) (st 2 true false 0x2#4 .ready) = .next u ∧
      ∃ v, runTurns (evts [0x04]) u = .next v) :=
  ⟨rfl, _, rfl, _, rfl⟩
theorem witness_EventsNeverCutTheDelay :
    (st 1 true false 0x3#4 .delay).phase = .delay ∧ IsLoopOp .iterHold = true ∧ Instr.iterHold ≠ .delayDone := by decide
theorem witness_SuccessivePatternsDifferInOneBit :
    ∃ u v t : State, runTurns [.iter] (st 1 true false 0x3#4 .ready) = .next u ∧
      runTurns [.evt 0x08, .done, .hold, .evt 0x10, .evt 0x04] u = .next v ∧ v.phase = .ready ∧ v.enabled = true ∧
      runTurns [.iter] v = .next t :=
  ⟨_, _, _, rfl, rfl, rfl, rfl, rfl⟩
theorem witness_CorruptedIndexSurvivesHolding :
    (st 8 false true 0x0#4 .ready).phase = .ready ∧ (st 8 false true 0x0#4 .ready).enabled = false ∧
    8 ≤ (st 8 false true 0x0#4 .ready).stepIndex := by decide
theorem witness_ResetEdgeDominates : (⟨true, true, 0x04⟩ : Ports).rst = true := by decide
theorem witness_HoldingUntilTheFirstEnable :
    Turn.evt 0x04 ∉ [Turn.evt 0x10, Turn.iter] ∧ ∃ t, runTurns [.evt 0x10, .iter] State.reset = .next t :=
  ⟨by decide, _, rfl⟩
theorem witness_ResetMeetsTheInvariant : 1 ≤ 1 := by decide
/-- A state in the delay that meets the invariant, and its step. -/
theorem witness_EveryStepKeepsTheInvariant :
    ((st 1 true false 0x3#4 .delay).setEnv (.events ⟨[], .silent⟩)).Inv ∧
    ∃ t, step ((st 1 true false 0x3#4 .delay).setEnv (.events ⟨[], .silent⟩)) = .next t :=
  ⟨⟨by unfold State.IndexInRange; decide, by unfold State.CoilMatches; decide⟩, _, rfl⟩
theorem witness_ReachedFromReset :
    ReachedFromReset (.events ⟨[.evt 0x04, .iter], .free 0 0⟩) 2 (st 1 true false 0x3#4 .delay) := rfl
theorem witness_DelayCyclesIsTheCeiling : 0 < 1200 * 2500 := by decide
theorem witness_EdgesKeepTheCounter : 1 ≤ 3 ∧ (stc 1 true false 0x3#4 .delay 2).CounterInv 3 :=
  ⟨by decide, by unfold State.CounterInv; decide⟩
theorem witness_ClockedStepsKeepTheCounter :
    (State.reset.setEnv (.clocked ⟨[], .silent⟩)).IsClocked ∧ (State.reset.setEnv (.clocked ⟨[], .silent⟩)).CounterInv delayCycles ∧
    ∃ t, step (State.reset.setEnv (.clocked ⟨[], .silent⟩)) = .next t := by
  refine ⟨⟨_, rfl⟩, ⟨by decide, ?_⟩, _, rfl⟩
  rw [delayCycles, delayCyclesOf]
  exact (ceilDiv_spec (Nat.mul_pos (by decide) (Nat.succ_pos _)) (by norm_num)).1
theorem witness_ClockEdgeFieldByField : Ports.quiet.rst = false ∧ (⟨true, false, 0⟩ : Ports).rst = true := by decide
theorem witness_EventPortsDoNotReachTheCoilsInACycle : Ports.quiet.rst = (Ports.event 0x08).rst := by decide
theorem witness_SteppingIterationsAreDelayCyclesApart :
    (st 0 true false 0x0#4 .ready).phase = .ready ∧ (st 0 true false 0x0#4 .ready).enabled = true ∧ 1 ≤ 3 ∧ 3 ≤ 3 := by
  decide
theorem witness_StepSpacingIsNeverShortened :
    (st 0 true false 0x0#4 .ready).phase = .ready ∧ (st 0 true false 0x0#4 .ready).enabled = true ∧
    (Ports.event 0x10).rst = false ∧ (∀ q ∈ [Ports.event 0x08, Ports.quiet], q.rst = false) ∧
    [Ports.event 0x08, Ports.quiet].length < 3 := by decide
theorem witness_ClockedRunsRefineTheEventLevel : (stc 0 true false 0x0#4 .ready 2).SameButCounter (st 0 true false 0x0#4 .ready) :=
  rfl

end Sys2Proof.Tests
end

section
/-! SUPPORT. Outcomes in sequence: a run of the machine, and a list of turns, in two parts. -/

namespace Sys2Proof.Machine

/-- An outcome, then what `f` makes of its next state; a stop stays as it is. -/
def andThen (o : Host.Outcome State Fault Refusal) (f : State → Host.Outcome State Fault Refusal) :
    Host.Outcome State Fault Refusal :=
  match o with
  | .next s => f s
  | .fault e => .fault e
  | .refused r => .refused r

@[simp] theorem andThen_next (s : State) (f : State → Host.Outcome State Fault Refusal) :
    andThen (.next s) f = f s := rfl

@[simp] theorem andThen_refused (r : Refusal) (f : State → Host.Outcome State Fault Refusal) :
    andThen (.refused r) f = .refused r := rfl

/-- A run of `m + n` steps is one of `m` steps, then one of `n`. -/
theorem run_add (m n : Nat) (s : State) :
    Host.Core.run core (m + n) s = andThen (Host.Core.run core m s) (Host.Core.run core n) := by
  induction m generalizing s with
  | zero => rw [Nat.zero_add]; rfl
  | succ m ih =>
    rw [Nat.succ_add]
    cases h : step s with
    | next u => rw [run_succ_of_next h, run_succ_of_next h]; exact ih u
    | fault e => cases e
    | refused r => rw [run_succ_of_refused h, run_succ_of_refused h]; rfl

/-- A first turn that is refused ends the list. -/
theorem runTurns_cons_refused {r : Turn} {q : Refusal} {s : State} (rs : List Turn) (h : takeTurn r s = .refused q) :
    runTurns (r :: rs) s = .refused q := by
  simp only [runTurns, h]

/-- A list of turns in two parts, refusals included. -/
theorem runTurns_append (rs qs : List Turn) (s : State) :
    runTurns (rs ++ qs) s = andThen (runTurns rs s) (runTurns qs) := by
  induction rs generalizing s with
  | nil => rfl
  | cons r rs ih =>
    rw [List.cons_append]
    cases h : takeTurn r s with
    | next u => rw [runTurns_cons_next h, runTurns_cons_next h]; exact ih u
    | fault e => cases e
    | refused q => rw [runTurns_cons_refused _ h, runTurns_cons_refused _ h]; rfl

/-- A list of clocked inputs in two parts. -/
theorem runClock_append (dc : Nat) (cs ds : List ClockInput) (s : State) :
    runClock dc (cs ++ ds) s = runClock dc ds (runClock dc cs s) := by
  induction cs generalizing s with
  | nil => rfl
  | cons c cs ih => exact ih _

/-- A list of clocked inputs does the same whatever the environment. -/
theorem runClock_setEnv (dc : Nat) (cs : List ClockInput) (s : State) (e : Environment) :
    runClock dc cs (s.setEnv e) = (runClock dc cs s).setEnv e := by
  induction cs generalizing s with
  | nil => rfl
  | cons c cs ih =>
    rw [runClock, takeClockInput_setEnv]
    exact ih _

end Sys2Proof.Machine
end

section
/-! SUPPORT. What the machine does under a listed sequence of turns or of clocked inputs. -/

namespace Sys2Proof.Machine

/-- The machine runs a listed part turn by turn, refusals included. -/
theorem run_listedTurns (ts rest : List Turn) (tail : Tail Turn) (s : State) :
    Host.Core.run core ts.length (s.setEnv (.events ⟨ts ++ rest, tail⟩)) =
      runTurns ts (s.setEnv (.events ⟨rest, tail⟩)) := by
  induction ts generalizing s with
  | nil => rfl
  | cons t ts ih =>
    cases h : takeTurn t s with
    | next u =>
      rw [runTurns_cons_next (takeTurn_setEnv _ h)]
      exact (run_events_next (nextTurn_cons t (ts ++ rest) tail) h).trans (ih u)
    | fault e => cases e
    | refused q =>
      rw [runTurns_cons_refused ts (takeTurn_setEnv_refused _ h)]
      exact run_events_refused (nextTurn_cons t (ts ++ rest) tail) h

/-- The machine runs a listed part of clocked inputs one by one. -/
theorem run_listedInputs (cs rest : List ClockInput) (tail : Tail ClockInput) (s : State) :
    Host.Core.run core cs.length (s.setEnv (.clocked ⟨cs ++ rest, tail⟩)) =
      .next (runClock delayCycles cs (s.setEnv (.clocked ⟨rest, tail⟩))) := by
  induction cs generalizing s with
  | nil => rfl
  | cons c cs ih =>
    rw [runClock, takeClockInput_setEnv]
    exact (run_clocked (nextInput_cons c (cs ++ rest) tail) s).trans (ih _)

end Sys2Proof.Machine
end

section
/-! PROOF. An unselected LOOP step (O5). -/

namespace Sys2Proof.Machine

/-- Each LOOP operation is its effect behind the guard of R65, which refuses every other one. -/
theorem exec_refused_of_unselected {i : Instr} {s : State} (hi : IsLoopOp i = true) (hn : s.loopStep ≠ i) :
    exec i s = .refused (.loopStepNotSelected i s.loopStep) := by
  cases i with
  | delayDone | iterHold | iterStepFwd | iterStepBwd => exact State.whenSelected_refused hn
  | evtEnable | evtDisable | evtToggleDir | evtReserved | evtOther => cases hi

/-- Settles O5. -/
theorem unselectedLoopStepIsRefused : Obligations.UnselectedLoopStepIsRefused :=
  fun _ _ hi hn => exec_refused_of_unselected hi hn.symm

end Sys2Proof.Machine
end

section
/-! PROOF. A step runs the next turn or takes the next input (O33). -/

namespace Sys2Proof.Machine

/-- The turns that `unnamed` leaves alone are those that name no LOOP step. -/
theorem Turn.unnamed_eq_self {t : Turn} : t.unnamed = t ↔ t ∉ [Turn.hold, .fwd, .bwd, .done] := by
  cases t <;> simp [Turn.unnamed]

/-- A turn that runs an instruction is exec of it. -/
theorem takeTurn_of_instr {t : Turn} {s : State} {i : Instr} (h : t.instr s = some i) : takeTurn t s = exec i s := by
  cases t with
  | reset | platformWrite => cases h
  | evt | iter | hold | fwd | bwd | done => cases h; rfl

/-- Which instruction a turn runs does not depend on the environment. -/
@[simp] theorem Turn.instr_setEnv (t : Turn) (s : State) (e : Environment) : t.instr (s.setEnv e) = t.instr s := by
  cases t <;> rfl

/-- A step takes the turn that is next. -/
theorem step_of_nextTurn {s : State} {σ τ : Schedule Turn} {t : Turn} (hs : s.env = .events σ)
    (hσ : nextTurn σ = (t, τ)) : step s = takeTurn t (s.setEnv (.events τ)) := by
  rw [step_events hs, hσ]

/-- A step takes the clocked input that is next. -/
theorem step_of_nextInput {s : State} {σ τ : Schedule ClockInput} {c : ClockInput} (hs : s.env = .clocked σ)
    (hσ : nextInput σ = (c, τ)) : step s = .next (takeClockInput delayCycles c (s.setEnv (.clocked τ))) := by
  rw [step_clocked hs, hσ]

/-- Settles O33. -/
theorem stepRunsTheNextTurn : Obligations.StepRunsTheNextTurn := by
  refine ⟨?instruction, fun _ _ _ => step_of_nextTurn, fun _ _ _ _ => step_of_nextTurn,
    fun _ _ _ _ => step_of_nextInput, fun _ _ _ _ => step_of_nextInput, nextTurn_cons, nextInput_cons,
    nextTurn_silent, nextInput_silent, nextTurn_repeating, nextInput_repeating, ?freeTurn,
    fun k n => ⟨_, nextInput_free k n⟩⟩
  case instruction =>
    intro s σ τ t i hs hσ hi
    rw [step_of_nextTurn hs hσ]
    exact takeTurn_of_instr ((t.instr_setEnv s _).trans hi)
  case freeTurn =>
    exact fun k n => ⟨_, Turn.unnamed_eq_self.mp (Turn.unnamed_unnamed _), nextTurn_free k n⟩

end Sys2Proof.Machine
end

section
/-! PROOF. The infinite run of an infinite sequence, at both levels (O59). -/

namespace Sys2Proof.Machine

/-- The state after a turn; where the turn is refused, the state before it. -/
def afterTurn (t : Turn) (s : State) : State :=
  match takeTurn t s with
  | .next u => u
  | .fault _ | .refused _ => s

/-- A turn that names no LOOP step is never refused. -/
theorem takeTurn_eq_afterTurn {t : Turn} (ht : t ∉ [Turn.hold, .fwd, .bwd, .done]) (s : State) :
    takeTurn t s = .next (afterTurn t s) := by
  obtain ⟨u, hu⟩ := takeTurn_unnamed t s
  rw [Turn.unnamed_eq_self.mpr ht] at hu
  simp only [afterTurn, hu]

/-- The run from reset that the turns of `f` drive. -/
def eventRun (f : Nat → Turn) : Nat → State
  | 0 => State.reset
  | n + 1 => afterTurn (f n) (eventRun f n)

theorem isEventRun_eventRun {f : Nat → Turn} (hf : ∀ n, f n ∉ [Turn.hold, .fwd, .bwd, .done]) :
    IsEventRun f (eventRun f) :=
  ⟨rfl, fun n => takeTurn_eq_afterTurn (hf n) _⟩

/-- The first `n` turns of a run lead to its `n`-th state. -/
theorem runTurns_of_isEventRun {f : Nat → Turn} {r : Nat → State} (h : IsEventRun f r) (n : Nat) :
    runTurns ((List.range n).map f) State.reset = .next (r n) := by
  obtain ⟨hreset, hturn⟩ := h
  induction n with
  | zero => exact congrArg _ hreset.symm
  | succ n ih =>
    rw [List.range_succ, List.map_append, runTurns_append_next ih]
    exact runTurns_cons_next (hturn n)

/-- A run's states are named by its turns alone. -/
theorem isEventRun_unique {f : Nat → Turn} {r r' : Nat → State} (h : IsEventRun f r) (h' : IsEventRun f r') :
    r' = r :=
  funext fun n => Host.Outcome.next.inj ((runTurns_of_isEventRun h' n).symm.trans (runTurns_of_isEventRun h n))

/-- The machine follows a run of turns to any length. -/
theorem reachedFromReset_of_isEventRun {f : Nat → Turn} {r : Nat → State} (h : IsEventRun f r) (n : Nat)
    (tail : Tail Turn) :
    ReachedFromReset (.events ⟨(List.range n).map f, tail⟩) n ((r n).setEnv (.events ⟨[], tail⟩)) := by
  have hrun := run_listedTurns ((List.range n).map f) [] tail State.reset
  rw [runTurns_setEnv _ (runTurns_of_isEventRun h n), List.append_nil, List.length_map, List.length_range] at hrun
  exact hrun

/-- The run from reset that the clocked inputs of `f` drive. -/
def clockedRun (dc : Nat) (f : Nat → ClockInput) : Nat → State
  | 0 => State.reset
  | n + 1 => takeClockInput dc (f n) (clockedRun dc f n)

theorem isClockedRun_clockedRun (dc : Nat) (f : Nat → ClockInput) : IsClockedRun dc f (clockedRun dc f) :=
  ⟨rfl, fun _ => rfl⟩

/-- The first `n` clocked inputs of a run lead to its `n`-th state. -/
theorem runClock_of_isClockedRun {dc : Nat} {f : Nat → ClockInput} {r : Nat → State} (h : IsClockedRun dc f r)
    (n : Nat) : runClock dc ((List.range n).map f) State.reset = r n := by
  obtain ⟨hreset, hinput⟩ := h
  induction n with
  | zero => exact hreset.symm
  | succ n ih =>
    rw [List.range_succ, List.map_append, runClock_append, ih, hinput n]
    rfl

/-- A clocked run's states are named by its inputs alone. -/
theorem isClockedRun_unique {dc : Nat} {f : Nat → ClockInput} {r r' : Nat → State} (h : IsClockedRun dc f r)
    (h' : IsClockedRun dc f r') : r' = r :=
  funext fun n => (runClock_of_isClockedRun h' n).symm.trans (runClock_of_isClockedRun h n)

/-- The machine follows a clocked run to any length. -/
theorem reachedFromReset_of_isClockedRun {f : Nat → ClockInput} {r : Nat → State}
    (h : IsClockedRun delayCycles f r) (n : Nat) (tail : Tail ClockInput) :
    ReachedFromReset (.clocked ⟨(List.range n).map f, tail⟩) n ((r n).setEnv (.clocked ⟨[], tail⟩)) := by
  have hrun := run_listedInputs ((List.range n).map f) [] tail State.reset
  rw [runClock_setEnv, runClock_of_isClockedRun h n, List.append_nil, List.length_map, List.length_range] at hrun
  exact hrun

/-- Settles O59: the run is built turn by turn, and the machine follows every such run. -/
theorem everyInfiniteSequenceHasARun : Obligations.EveryInfiniteSequenceHasARun := by
  refine ⟨fun f hf => ?_, fun f => ?_⟩
  · have h := isEventRun_eventRun hf
    exact ⟨_, h, fun _ => isEventRun_unique h, reachedFromReset_of_isEventRun h⟩
  · have h := isClockedRun_clockedRun delayCycles f
    exact ⟨_, h, fun _ => isClockedRun_unique h, reachedFromReset_of_isClockedRun h⟩

end Sys2Proof.Machine
end

section
/-! PROOF. Endless periodic sequences, and endless BTN2 (O60). -/

namespace Sys2Proof.Machine

/-- A state whose environment is `e` already. -/
theorem State.setEnv_self {s : State} {e : Environment} (h : s.env = e) : s.setEnv e = s := by
  subst h; rfl

/-- No list of turns touches the environment. -/
theorem runTurns_env {ts : List Turn} {s t : State} (h : runTurns ts s = .next t) : t.env = s.env := by
  induction ts generalizing s with
  | nil => cases h; rfl
  | cons r rs ih =>
    cases hr : takeTurn r s with
    | next u => rw [runTurns_cons_next hr] at h; exact (ih h).trans (takeTurn_env hr)
    | fault e => cases e
    | refused q => rw [runTurns_cons_refused rs hr] at h; cases h

/-- Two states with the same next step have the same runs of at least one step. -/
theorem run_succ_congr {s t : State} (n : Nat) (h : step s = step t) :
    Host.Core.run core (n + 1) s = Host.Core.run core (n + 1) t := by
  cases ht : step t with
  | next u => rw [run_succ_of_next ht, run_succ_of_next (h.trans ht)]
  | fault e => cases e
  | refused r => rw [run_succ_of_refused ht, run_succ_of_refused (h.trans ht)]

/-- Once around a repeated block: the block's turns, and the same environment again. -/
theorem run_repeatedTurns_once (t : Turn) (ts : List Turn) (s : State) :
    Host.Core.run core (ts.length + 1) (s.setEnv (.events ⟨[], .repeating t ts⟩)) =
      runTurns (t :: ts) (s.setEnv (.events ⟨[], .repeating t ts⟩)) := by
  have hlisted := run_listedTurns (t :: ts) [] (.repeating t ts) s
  rw [List.append_nil] at hlisted
  exact (run_succ_congr _ rfl).trans hlisted

/-- Once around a repeated block of clocked inputs. -/
theorem run_repeatedInputs_once (c : ClockInput) (cs : List ClockInput) (s : State) :
    Host.Core.run core (cs.length + 1) (s.setEnv (.clocked ⟨[], .repeating c cs⟩)) =
      .next (runClock delayCycles (c :: cs) (s.setEnv (.clocked ⟨[], .repeating c cs⟩))) := by
  have hlisted := run_listedInputs (c :: cs) [] (.repeating c cs) s
  rw [List.append_nil] at hlisted
  exact (run_succ_congr _ rfl).trans hlisted

/-- `k` times around a repeated block of turns, refusals included. -/
theorem run_repeatedTurns (t : Turn) (ts : List Turn) (k : Nat) (s : State) :
    Host.Core.run core (k * (ts.length + 1)) (s.setEnv (.events ⟨[], .repeating t ts⟩)) =
      runTurns (List.replicate k (t :: ts)).flatten (s.setEnv (.events ⟨[], .repeating t ts⟩)) := by
  induction k generalizing s with
  | zero => rw [Nat.zero_mul]; rfl
  | succ k ih =>
    rw [Nat.succ_mul, Nat.add_comm, run_add, run_repeatedTurns_once, List.replicate_succ, List.flatten_cons,
      runTurns_append]
    cases h : runTurns (t :: ts) (s.setEnv (.events ⟨[], .repeating t ts⟩)) with
    | next u =>
      have hu : u.setEnv (.events ⟨[], .repeating t ts⟩) = u := State.setEnv_self (runTurns_env h)
      rw [← hu]
      exact ih u
    | fault e => cases e
    | refused q => rfl

/-- `k` times around a repeated block of clocked inputs. -/
theorem run_repeatedInputs (c : ClockInput) (cs : List ClockInput) (k : Nat) (s : State) :
    Host.Core.run core (k * (cs.length + 1)) (s.setEnv (.clocked ⟨[], .repeating c cs⟩)) =
      .next (runClock delayCycles (List.replicate k (c :: cs)).flatten
        (s.setEnv (.clocked ⟨[], .repeating c cs⟩))) := by
  induction k generalizing s with
  | zero => rw [Nat.zero_mul]; rfl
  | succ k ih =>
    rw [Nat.succ_mul, Nat.add_comm, run_add, run_repeatedInputs_once, List.replicate_succ, List.flatten_cons,
      runClock_append, runClock_setEnv]
    exact ih _

/-- An edge with BTN2's event complements the direction, whatever its LOOP part does. -/
theorem clockEdge_btn2_direction (dc : Nat) (s : State) :
    (clockEdge dc (Ports.event 0x10) s).direction = !s.direction := by
  rw [clockEdge_run rfl]
  rfl

/-- Where every step complements the direction and gives the same environment again, the direction after `n` steps is
the first one complemented for odd `n`. -/
theorem run_direction_of_flips {e : Environment}
    (hstep : ∀ s : State, s.env = e → ∃ t, step s = .next t ∧ t.env = e ∧ t.direction = !s.direction)
    (n : Nat) {s : State} (hs : s.env = e) :
    ∃ t : State, Host.Core.run core n s = .next t ∧ t.direction = (s.direction ^^ (n % 2 == 1)) := by
  induction n generalizing s with
  | zero => exact ⟨s, rfl, by simp⟩
  | succ n ih =>
    obtain ⟨u, hu, hue, hud⟩ := hstep s hs
    obtain ⟨t, ht, htd⟩ := ih hue
    refine ⟨t, (run_succ_of_next hu).trans ht, ?_⟩
    rw [htd, hud]
    rcases Nat.mod_two_eq_zero_or_one n with h | h <;> simp [Nat.add_mod, h]

/-- The same from reset. -/
theorem reachedFromReset_direction_of_flips {e : Environment}
    (hstep : ∀ s : State, s.env = e → ∃ t, step s = .next t ∧ t.env = e ∧ t.direction = !s.direction) (n : Nat) :
    ∃ t : State, ReachedFromReset e n t ∧ t.direction = (n % 2 == 1) := by
  obtain ⟨t, ht, hd⟩ := run_direction_of_flips hstep n (State.reset.setEnv_env e)
  exact ⟨t, ht, hd.trans (Bool.false_xor _)⟩

/-- Settles O60: the blocks repeat, and a step under endless BTN2 complements the direction at either level. -/
theorem endlessEventsNeverSettle : Obligations.EndlessEventsNeverSettle := by
  refine ⟨run_repeatedTurns, run_repeatedInputs, reachedFromReset_direction_of_flips fun s hs => ?turn,
    reachedFromReset_direction_of_flips fun s hs => ?edge⟩
  case turn =>
    have hstep := step_of_nextTurn hs (nextTurn_repeating _ _)
    exact ⟨_, hstep.trans (exec_decodeEvt 0x10 _), rfl, rfl⟩
  case edge =>
    have hstep := step_of_nextInput hs (nextInput_repeating _ _)
    exact ⟨_, hstep, takeClockInput_env _ _ _, clockEdge_btn2_direction _ _⟩

end Sys2Proof.Machine
end

section
/-! PROOF. The pattern ROM and the reset state (O21, O22, O42). -/

namespace Sys2Proof.Machine

/-- The ROM read at an index is the listing's entry there. -/
theorem romListing_getElem (i : Index) : romListing[i.val]? = some (rom i) := by
  revert i; decide

/-- Cyclically adjacent entries differ in one line. -/
theorem popcount_rom_xor_rom_nextFwd (i : Index) : popcount (rom i ^^^ rom (nextFwd i)) = 1 := by
  revert i; decide

/-- How many lines an entry drives. -/
theorem popcount_rom (i : Index) : popcount (rom i) = if i.val % 2 = 0 then 1 else 2 := by
  revert i; decide

/-- A two-line entry is the union of its neighbours. -/
theorem rom_of_odd : ∀ i : Index, i.val % 2 = 1 → rom i = rom (nextBwd i) ||| rom (nextFwd i) := by
  decide

/-- Settles O21. -/
theorem romContentsAndHalfStep : Obligations.RomContentsAndHalfStep :=
  ⟨romListing_getElem, by decide, popcount_rom_xor_rom_nextFwd, by decide⟩

/-- Settles O22. -/
theorem romTwoLineEntriesAreUnions : Obligations.RomTwoLineEntriesAreUnions :=
  fun i => ⟨popcount_rom i, rom_of_odd i⟩

/-- Settles O42. -/
theorem resetStateOfTheBlock : Obligations.ResetStateOfTheBlock :=
  ⟨rfl, rfl, rfl, rfl, rfl, rfl⟩

end Sys2Proof.Machine
end

section
/-! PROOF. The writers of each field, and the frame of the LOOP operations (O16, O8). -/

namespace Sys2Proof.Machine

variable {s t : State} {i : Instr}

/-- No operation writes the delay counter or the platform's bits. -/
theorem exec_delayCnt_outUpper (h : exec i s = .next t) : t.delayCnt = s.delayCnt ∧ t.outUpper = s.outUpper := by
  rcases exec_next_cases h with ⟨_, rfl⟩ | ⟨_, rfl⟩ | ⟨_, rfl⟩ | ⟨_, rfl⟩ | ⟨_, _, rfl⟩ | ⟨_, _, rfl⟩ | ⟨_, _, rfl⟩ |
    ⟨_, _, rfl⟩
  all_goals exact ⟨rfl, rfl⟩

/-- Settles O16: in each of the nine operations' effects, the fields that are not its own read as before. -/
theorem eachFieldHasItsWriters : Obligations.EachFieldHasItsWriters := by
  intro i s t h
  rcases exec_next_cases h with ⟨rfl, rfl⟩ | ⟨rfl, rfl⟩ | ⟨rfl, rfl⟩ | ⟨_, rfl⟩ | ⟨rfl, _, rfl⟩ | ⟨rfl, _, rfl⟩ |
    ⟨rfl, _, rfl⟩ | ⟨rfl, _, rfl⟩
  all_goals simp

/-- Settles O8: the flags' writers are EVT operations. -/
theorem loopStepsNeverWriteTheFlags : Obligations.LoopStepsNeverWriteTheFlags := by
  intro i s t hi h
  obtain ⟨henabled, hdirection, _⟩ := eachFieldHasItsWriters i s t h
  obtain ⟨hcnt, hupper⟩ := exec_delayCnt_outUpper h
  refine ⟨by_contra fun hne => ?_, by_contra fun hne => ?_, hcnt, hupper, exec_env h⟩
  · obtain rfl | rfl := henabled hne <;> cases hi
  · obtain rfl := hdirection hne
    cases hi

end Sys2Proof.Machine
end

section
/-! PROOF. What a clock edge can do, said once. -/

namespace Sys2Proof.Machine

/-- The four things the LOOP part of an edge can do: count, end the delay, hold, or step. -/
theorem clockLoopPart_cases (dc : Nat) (s : State) :
    (s.phase = .delay ∧ 1 < s.delayCnt ∧ clockLoopPart dc s = s.setDelayCnt (s.delayCnt - 1)) ∨
    (s.phase = .delay ∧ ¬ 1 < s.delayCnt ∧ clockLoopPart dc s = (s.setDelayCnt 0).setPhase .ready) ∨
    (s.phase = .ready ∧ s.enabled = false ∧ clockLoopPart dc s = s.emit 0x0#4) ∨
    (s.phase = .ready ∧ s.enabled = true ∧ clockLoopPart dc s =
      ((s.stepTo (nextIndex s.stepIndex s.direction)).setDelayCnt (if 1 < dc then dc - 1 else 0)).setPhase
        (if 1 < dc then .delay else .ready)) := by
  cases hp : s.phase
  · cases he : s.enabled
    · simp [clockLoopPart_hold hp he]
    · simp [clockLoopPart_step hp he]
  · by_cases hc : 1 < s.delayCnt
    · simp [clockLoopPart_count hp hc, hc]
    · simp [clockLoopPart_done hp hc, hc]

variable (p : Ports) (s t : State)

@[simp] theorem clockEvtPart_stepIndex : (clockEvtPart p s t).stepIndex = t.stepIndex := by
  rw [clockEvtPart_frame]

@[simp] theorem clockEvtPart_coil : (clockEvtPart p s t).coil = t.coil := by
  rw [clockEvtPart_frame]

@[simp] theorem clockEvtPart_phase : (clockEvtPart p s t).phase = t.phase := by
  rw [clockEvtPart_frame]

@[simp] theorem clockEvtPart_delayCnt : (clockEvtPart p s t).delayCnt = t.delayCnt := by
  rw [clockEvtPart_frame]

end Sys2Proof.Machine
end

section
/-! PROOF. What a step of either level can do to the index, the coils and the phase, said once. -/

namespace Sys2Proof.Machine

/-- The ways in which a step takes the index, the coils and the phase of `s` to those of `t`. -/
inductive SequencerStep (s t : State) : Prop where
  /-- Index and coils stay; the phase stays or the delay ends. -/
  | keep (hindex : t.stepIndex = s.stepIndex) (hcoil : t.coil = s.coil) (hphase : t.phase = s.phase ∨ t.phase = .ready)
  /-- The index stays and the coils are released outside the delay (R86). -/
  | release (hindex : t.stepIndex = s.stepIndex) (hcoil : t.coil = 0x0#4) (hphase : t.phase = .ready)
  /-- A stepping iteration: an index in range and its pattern (R87, R88), in either phase, since an edge of a block with
  DELAY_CYCLES = 1 has no delay (R172). -/
  | move (i : Index) (hindex : t.stepIndex = i.val) (hcoil : t.coil = rom i)
  /-- The reset values (R156). -/
  | reset (hindex : t.stepIndex = 0) (hcoil : t.coil = 0x0#4) (hphase : t.phase = .ready)

variable {s t : State}

/-- The environment takes no part in it. -/
theorem SequencerStep.of_setEnv {e : Environment} (h : SequencerStep (s.setEnv e) t) : SequencerStep s t := by
  cases h with
  | keep hindex hcoil hphase => exact .keep hindex hcoil hphase
  | release hindex hcoil hphase => exact .release hindex hcoil hphase
  | move i hindex hcoil => exact .move i hindex hcoil
  | reset hindex hcoil hphase => exact .reset hindex hcoil hphase

/-- ITER_HOLD is selected when READY only. -/
theorem State.phase_of_loopStep_iterHold (h : s.loopStep = .iterHold) : s.phase = .ready := by
  cases hp : s.phase with
  | ready => rfl
  | delay => rw [State.loopStep_delay hp] at h; cases h

theorem exec_sequencerStep {i : Instr} (h : exec i s = .next t) : SequencerStep s t := by
  rcases exec_next_cases h with ⟨_, rfl⟩ | ⟨_, rfl⟩ | ⟨_, rfl⟩ | ⟨_, rfl⟩ | ⟨_, _, rfl⟩ | ⟨_, hsel, rfl⟩ | ⟨_, _, rfl⟩ |
    ⟨_, _, rfl⟩
  iterate 4 exact .keep rfl rfl (.inl rfl)
  · exact .keep rfl rfl (.inr rfl)
  · exact .release rfl rfl (State.phase_of_loopStep_iterHold hsel)
  · exact .move _ rfl rfl
  · exact .move _ rfl rfl

theorem clockLoopPart_sequencerStep (dc : Nat) (s : State) : SequencerStep s (clockLoopPart dc s) := by
  rcases clockLoopPart_cases dc s with ⟨_, _, h⟩ | ⟨_, _, h⟩ | ⟨hp, _, h⟩ | ⟨_, _, h⟩ <;> rw [h]
  · exact .keep rfl rfl (.inl rfl)
  · exact .keep rfl rfl (.inr rfl)
  · exact .release rfl rfl hp
  · exact .move _ rfl rfl

/-- The EVT part of an edge takes no part in it. -/
theorem SequencerStep.then_clockEvtPart {p : Ports} {u : State} (h : SequencerStep s t) :
    SequencerStep s (clockEvtPart p u t) := by
  cases h with
  | keep hindex hcoil hphase => exact .keep (by simpa) (by simpa) (by simpa)
  | release hindex hcoil hphase => exact .release (by simpa) (by simpa) (by simpa)
  | move i hindex hcoil => exact .move i (by simpa) (by simpa)
  | reset hindex hcoil hphase => exact .reset (by simpa) (by simpa) (by simpa)

theorem clockEdge_sequencerStep (dc : Nat) (p : Ports) (s : State) : SequencerStep s (clockEdge dc p s) := by
  cases hr : p.rst
  · rw [clockEdge_run hr]
    exact (clockLoopPart_sequencerStep dc s).then_clockEvtPart
  · rw [clockEdge_reset hr]
    exact .reset rfl rfl rfl

theorem step_sequencerStep (h : step s = .next t) : SequencerStep s t := by
  obtain ⟨e, ⟨i, hx⟩ | rfl | ⟨bits, rfl⟩ | ⟨p, rfl⟩⟩ := step_next_cases h
  · exact (exec_sequencerStep hx).of_setEnv
  · exact .reset rfl rfl rfl
  · exact .keep rfl rfl (.inl rfl)
  · exact (clockEdge_sequencerStep _ p _).of_setEnv

end Sys2Proof.Machine
end

section
/-! PROOF. The index and coil invariant (O17, O46, O47). -/

namespace Sys2Proof.Machine

variable {s t : State}

theorem SequencerStep.stepIndex (h : SequencerStep s t) : t.stepIndex = s.stepIndex ∨ t.stepIndex ≤ 7 := by
  cases h with
  | keep hindex | release hindex => exact .inl hindex
  | move i hindex => exact .inr (hindex.trans_le (index_le i))
  | reset hindex => exact .inr (hindex.trans_le (Nat.zero_le 7))

/-- Settles O17: 7 fits every width of at least 3 bits. -/
theorem noStepWritesAnIndexOutOfRange : Obligations.NoStepWritesAnIndexOutOfRange := by
  intro s t h
  have hindex := (step_sequencerStep h).stepIndex
  refine ⟨hindex, fun idxW hw hs => ?_⟩
  have hpow : 2 ^ 3 ≤ 2 ^ idxW := Nat.pow_le_pow_right (by decide) hw
  omega

/-- Coils that show the pattern of an index in range meet the invariant in either phase. -/
theorem State.inv_of_index {i : Index} (hindex : s.stepIndex = i.val) (hcoil : s.coil = rom i) : s.Inv := by
  have hmatch : s.coil = rom (normIndex s.stepIndex) := by rw [hindex, normIndex_index, hcoil]
  exact ⟨hindex.trans_le (index_le i), fun _ => hmatch, fun _ => .inr hmatch⟩

/-- Released coils meet it when READY. -/
theorem State.inv_of_released (hindex : s.stepIndex ≤ 7) (hcoil : s.coil = 0x0#4) (hphase : s.phase = .ready) :
    s.Inv :=
  ⟨hindex, fun hdelay => by simp [hphase] at hdelay, fun _ => .inl hcoil⟩

/-- The end of the delay asks less of the coils than the delay did. -/
theorem State.CoilMatches.keep (h : s.CoilMatches) (hindex : t.stepIndex = s.stepIndex) (hcoil : t.coil = s.coil)
    (hphase : t.phase = s.phase ∨ t.phase = .ready) : t.CoilMatches := by
  obtain ⟨hdelay, hready⟩ := h
  unfold State.CoilMatches
  rw [hindex, hcoil]
  rcases hphase with hp | hp <;> rw [hp]
  · exact ⟨hdelay, hready⟩
  · cases hs : s.phase with
    | ready => exact ⟨nofun, fun _ => hready hs⟩
    | delay => exact ⟨nofun, fun _ => .inr (hdelay hs)⟩

theorem SequencerStep.inv (h : SequencerStep s t) (hs : s.Inv) : t.Inv := by
  obtain ⟨hrange, hmatch⟩ := hs
  cases h with
  | keep hindex hcoil hphase => exact ⟨hindex.trans_le hrange, hmatch.keep hindex hcoil hphase⟩
  | release hindex hcoil hphase => exact State.inv_of_released (hindex.trans_le hrange) hcoil hphase
  | move i hindex hcoil => exact State.inv_of_index hindex hcoil
  | reset hindex hcoil hphase => exact State.inv_of_released (hindex.trans_le (Nat.zero_le 7)) hcoil hphase

/-- Settles O46. -/
theorem everyStepKeepsTheInvariant : Obligations.EveryStepKeepsTheInvariant :=
  fun _ _ hs h => (step_sequencerStep h).inv hs

/-- Reset meets the invariant, whatever the environment. -/
theorem State.reset_setEnv_inv (e : Environment) : (State.reset.setEnv e).Inv :=
  State.inv_of_released (Nat.zero_le 7) rfl rfl

/-- Every state reached from reset meets the invariant. -/
theorem ReachedFromReset.inv {e : Environment} {n : Nat} (h : ReachedFromReset e n t) : t.Inv :=
  run_induction everyStepKeepsTheInvariant n _ t (State.reset_setEnv_inv e) h

/-- Settles O47. -/
theorem reachedIndexIsInRange : Obligations.ReachedIndexIsInRange := by
  intro e n t h
  obtain ⟨hrange, _⟩ := h.inv
  exact hrange

end Sys2Proof.Machine
end

section
/-! PROOF. The delay counter's invariant (O50, O51, O45). -/

namespace Sys2Proof.Machine

variable {s t : State} {dc : Nat}

/-- DELAY_CYCLES is at least 1 whatever the clock. -/
theorem one_le_delayCycles : 1 ≤ delayCycles := by
  have hpos : 0 < Config.STEP_DELAY_US * Config.CLK_HZ := Nat.mul_pos (by decide) (Nat.succ_pos _)
  rw [delayCycles, delayCyclesOf]
  exact (ceilDiv_spec hpos (by decide)).1

/-- The invariant reads the phase and the counter, and nothing else. -/
theorem State.counterInv_congr (hp : t.phase = s.phase) (hc : t.delayCnt = s.delayCnt) :
    t.CounterInv dc ↔ s.CounterInv dc := by
  unfold State.CounterInv
  rw [hp, hc]

/-- A running counter in the delay meets the invariant. -/
theorem State.counterInv_of_delay (hp : s.phase = .delay) (hpos : 0 < s.delayCnt) (hlt : s.delayCnt < dc) :
    s.CounterInv dc :=
  ⟨⟨fun _ => hpos, fun _ => hp⟩, hlt⟩

/-- A counter at 0 outside the delay meets it. -/
theorem State.counterInv_of_ready (hp : s.phase = .ready) (hc : s.delayCnt = 0) (hdc : 1 ≤ dc) : s.CounterInv dc :=
  ⟨by simp [hp, hc], by omega⟩

theorem clockLoopPart_counterInv (hdc : 1 ≤ dc) (hs : s.CounterInv dc) : (clockLoopPart dc s).CounterInv dc := by
  have ⟨_, hlt⟩ := hs
  rcases clockLoopPart_cases dc s with ⟨hp, hc, h⟩ | ⟨_, _, h⟩ | ⟨_, _, h⟩ | ⟨_, _, h⟩ <;> rw [h]
  · exact State.counterInv_of_delay hp (Nat.sub_pos_of_lt hc) ((Nat.sub_le _ _).trans_lt hlt)
  · exact State.counterInv_of_ready rfl rfl hdc
  · exact hs
  · by_cases hd : 1 < dc
    · rw [if_pos hd, if_pos hd]
      exact State.counterInv_of_delay rfl (Nat.sub_pos_of_lt hd) (Nat.sub_lt hdc Nat.one_pos)
    · rw [if_neg hd, if_neg hd]
      exact State.counterInv_of_ready rfl rfl hdc

/-- Settles O50: the LOOP part keeps the invariant, and the EVT part writes neither the phase nor the counter. -/
theorem edgesKeepTheCounter : Obligations.EdgesKeepTheCounter := by
  intro dc p s hdc hs
  cases hr : p.rst
  · rw [clockEdge_run hr, State.counterInv_congr (clockEvtPart_phase p s _) (clockEvtPart_delayCnt p s _)]
    exact clockLoopPart_counterInv hdc hs
  · rw [clockEdge_reset hr]
    exact State.counterInv_of_ready rfl rfl hdc

theorem takeClockInput_counterInv (c : ClockInput) (hdc : 1 ≤ dc) (hs : s.CounterInv dc) :
    (takeClockInput dc c s).CounterInv dc := by
  cases c with
  | edge p => exact edgesKeepTheCounter dc p s hdc hs
  | platformWrite bits => exact hs

/-- Settles O51: a clocked step is one clocked input, which leaves the environment's level alone. -/
theorem clockedStepsKeepTheCounter : Obligations.ClockedStepsKeepTheCounter := by
  rintro s t ⟨inputs, henv⟩ hs h
  rw [step_clocked henv] at h
  cases h
  exact ⟨⟨_, takeClockInput_env _ _ _⟩, takeClockInput_counterInv _ one_le_delayCycles hs⟩

/-- Settles O45. -/
theorem resetMeetsTheInvariant : Obligations.ResetMeetsTheInvariant :=
  ⟨State.reset_setEnv_inv State.reset.env, fun _ hdc => State.counterInv_of_ready rfl rfl hdc⟩

end Sys2Proof.Machine
end

section
/-! PROOF. Listed schedules run in their order (O35). -/

namespace Sys2Proof.Machine

/-- Settles O35. -/
theorem schedulesRunInOrder : Obligations.SchedulesRunInOrder :=
  ⟨run_listedTurns, run_listedInputs⟩

end Sys2Proof.Machine
end

section
/-! PROOF. The shared output register and the merge, bit by bit (O23). -/

namespace Sys2Proof.Machine

variable {w : Nat}

/-- The merge takes the owned bits from the pattern and the others from the register. -/
theorem outMerge_getLsbD (hw : 4 ≤ w) (r : BitVec w) (p : Pattern) (k : Nat) :
    (outMerge r p).getLsbD k = if k < 4 then p.getLsbD k else r.getLsbD k := by
  have hown : Config.OWN_MASK = BitVec.allOnes 4 := rfl
  have hmask : 0xF#4 = BitVec.allOnes 4 := rfl
  rw [outMerge, hown, hmask, BitVec.and_allOnes]
  by_cases hk : k < 4
  · have hkw : k < w := by omega
    simp [hk, hkw]
  · have hp : p.getLsbD k = false := BitVec.getLsbD_of_ge p k (Nat.le_of_not_lt hk)
    by_cases hkw : k < w
    · simp [hk, hkw, hp]
    · simp [hk, hkw, hp, BitVec.getLsbD_of_ge r k (Nat.le_of_not_lt hkw)]

/-- The shared register shows the coils in its four low bits and the platform's bits above them. -/
theorem State.outReg_getLsbD (s : State) (k : Nat) :
    (s.outReg w).getLsbD k = (decide (k < w) && if k < 4 then s.coil.getLsbD k else s.outUpper.testBit (k - 4)) := by
  unfold State.outReg
  rw [BitVec.getLsbD_ofNat, show 16 = 2 ^ 4 from rfl, Nat.testBit_two_pow_mul_add s.outUpper s.coil.isLt]
  rfl

/-- Emission makes of the shared register its merge with the pattern. -/
theorem State.emit_outReg (hw : 4 ≤ w) (s : State) (p : Pattern) :
    (s.emit p).outReg w = outMerge (s.outReg w) p := by
  refine BitVec.eq_of_getLsbD_eq fun k hk => ?_
  rw [outMerge_getLsbD hw, State.outReg_getLsbD, State.outReg_getLsbD]
  by_cases h4 : k < 4
  · simp [hk, h4]
  · simp [hk, h4]

/-- Settles O23. -/
theorem outMergeWritesOwnedBitsOnly : Obligations.OutMergeWritesOwnedBitsOnly := by
  intro w r p hw k
  refine ⟨outMerge_getLsbD hw r p k, ?_⟩
  rintro s rfl
  exact ⟨rfl, s.emit_outReg hw p⟩

end Sys2Proof.Machine
end

section
/-! PROOF. Another writer's store to the upper bits commutes with the block (O25). -/

namespace Sys2Proof.Machine

variable {s t : State} {i : Instr}

/-- An operation neither reads nor writes the platform's bits. -/
theorem exec_setOutUpper (bits : Nat) (h : exec i s = .next t) :
    exec i (s.setOutUpper bits) = .next (t.setOutUpper bits) := by
  rcases exec_next_cases h with ⟨rfl, rfl⟩ | ⟨rfl, rfl⟩ | ⟨rfl, rfl⟩ | ⟨rfl | ⟨_, rfl⟩, rfl⟩ | ⟨rfl, hl, rfl⟩ |
    ⟨rfl, hl, rfl⟩ | ⟨rfl, hl, rfl⟩ | ⟨rfl, hl, rfl⟩
  iterate 5 rfl
  all_goals exact State.whenSelected_of (s := s.setOutUpper bits) hl

/-- The LOOP part of an edge neither reads nor writes the platform's bits. -/
theorem clockLoopPart_setOutUpper (dc : Nat) (s : State) (bits : Nat) :
    clockLoopPart dc (s.setOutUpper bits) = (clockLoopPart dc s).setOutUpper bits := by
  rcases clockLoopPart_cases dc s with ⟨hp, hc, h⟩ | ⟨hp, hc, h⟩ | ⟨hp, he, h⟩ | ⟨hp, he, h⟩ <;> rw [h]
  · exact clockLoopPart_count (s := s.setOutUpper bits) hp hc
  · exact clockLoopPart_done (s := s.setOutUpper bits) hp hc
  · exact clockLoopPart_hold (s := s.setOutUpper bits) hp he
  · exact clockLoopPart_step (s := s.setOutUpper bits) hp he

/-- The EVT part of an edge neither reads nor writes the platform's bits. -/
theorem clockEvtPart_setOutUpper (p : Ports) (s t : State) (bits : Nat) :
    clockEvtPart p (s.setOutUpper bits) (t.setOutUpper bits) = (clockEvtPart p s t).setOutUpper bits := by
  unfold clockEvtPart
  split
  · cases decodeEvt p.evtCode <;> rfl
  · rfl

/-- A clock edge, a reset edge too, neither reads nor writes the platform's bits. -/
theorem clockEdge_setOutUpper (dc : Nat) (p : Ports) (s : State) (bits : Nat) :
    clockEdge dc p (s.setOutUpper bits) = (clockEdge dc p s).setOutUpper bits := by
  cases hr : p.rst
  · rw [clockEdge_run hr, clockEdge_run hr, clockLoopPart_setOutUpper, clockEvtPart_setOutUpper]
  · rw [clockEdge_reset hr, clockEdge_reset hr]
    rfl

/-- Settles O25. -/
theorem upperBitWritesCommuteWithTheBlock : Obligations.UpperBitWritesCommuteWithTheBlock :=
  ⟨fun _ _ _ bits h => exec_setOutUpper bits h, clockEdge_setOutUpper⟩

end Sys2Proof.Machine
end

section
/-! PROOF. What a list of events makes of the flags, and of the state (O37). -/

namespace Sys2Proof.Machine

/-- `enabled` after a list of codes: as the last EVT_ENABLE or EVT_DISABLE among them set it (R51). -/
def enabledAfter (codes : List Nat) (b : Bool) : Bool :=
  match (codes.filter fun c => c == 0x04 || c == 0x08).getLast? with
  | none => b
  | some c => c == 0x04

/-- `direction` after a list of codes: flipped once for each EVT_TOGGLE_DIR among them (R51). -/
def directionAfter (codes : List Nat) (b : Bool) : Bool := b ^^ (codes.count 0x10 % 2 == 1)

/-- The state after a list of events (runTurns_evts). -/
def State.afterEvents (codes : List Nat) (s : State) : State :=
  (s.setEnabled (enabledAfter codes s.enabled)).setDirection (directionAfter codes s.direction)

/-- `enabledAfter` looks at the codes of EVT_ENABLE and EVT_DISABLE only. -/
theorem enabledAfter_congr {cs ds : List Nat}
    (h : (cs.filter fun c => c == 0x04 || c == 0x08) = ds.filter fun c => c == 0x04 || c == 0x08) :
    enabledAfter cs = enabledAfter ds := by
  funext b
  simp only [enabledAfter, h]

/-- `directionAfter` counts the codes of EVT_TOGGLE_DIR and nothing else. -/
theorem directionAfter_congr {cs ds : List Nat} (h : cs.count 0x10 = ds.count 0x10) :
    directionAfter cs = directionAfter ds := by
  funext b
  simp only [directionAfter, h]

@[simp] theorem enabledAfter_nil (b : Bool) : enabledAfter [] b = b := rfl

@[simp] theorem directionAfter_nil (b : Bool) : directionAfter [] b = b := Bool.xor_false b

theorem enabledAfter_append (cs ds : List Nat) (b : Bool) :
    enabledAfter (cs ++ ds) b = enabledAfter ds (enabledAfter cs b) := by
  simp only [enabledAfter, List.filter_append, List.getLast?_append]
  cases (ds.filter fun c => c == 0x04 || c == 0x08).getLast? <;> rfl

theorem directionAfter_append (cs ds : List Nat) (b : Bool) :
    directionAfter (cs ++ ds) b = directionAfter ds (directionAfter cs b) := by
  simp only [directionAfter, List.count_append]
  rcases Nat.mod_two_eq_zero_or_one (cs.count 0x10) with hc | hc <;>
    rcases Nat.mod_two_eq_zero_or_one (ds.count 0x10) with hd | hd <;> simp [Nat.add_mod, hc, hd]

theorem State.afterEvents_append (cs ds : List Nat) (s : State) :
    s.afterEvents (cs ++ ds) = (s.afterEvents cs).afterEvents ds := by
  unfold State.afterEvents
  rw [enabledAfter_append, directionAfter_append]
  rfl

/-- The state after one event, by its code. -/
theorem State.afterEvents_singleton (code : Nat) (s : State) :
    s.afterEvents [code] =
      (if code = 0x04 then s.setEnabled true else if code = 0x08 then s.setEnabled false
        else if code = 0x10 then s.toggleDirection else s) := by
  split_ifs
  all_goals ext <;> simp [afterEvents, enabledAfter, directionAfter, *]

/-- A list of events completes in every state. -/
theorem runTurns_evts (codes : List Nat) (s : State) : runTurns (evts codes) s = .next (s.afterEvents codes) := by
  induction codes generalizing s with
  | nil => simp [evts, State.afterEvents, State.setEnabled, State.setDirection]
  | cons c cs ih =>
    have hc : takeTurn (.evt c) s = .next (s.afterEvents [c]) :=
      (exec_decodeEvt c s).trans (congrArg _ (s.afterEvents_singleton c).symm)
    have happ : s.afterEvents (c :: cs) = (s.afterEvents [c]).afterEvents cs := s.afterEvents_append [c] cs
    rw [happ, ← ih]
    exact runTurns_cons_next hc

/-- Settles O37. -/
theorem eventsComposeInOrder : Obligations.EventsComposeInOrder :=
  fun codes s => runTurns_evts codes s

end Sys2Proof.Machine
end

section
/-! PROOF. An iteration that samples the flags apart ends as an atomic run (O38). -/

namespace Sys2Proof.Machine

variable {s t : State}

/-- The LOOP agent's turn when READY and disabled. -/
theorem takeTurn_iter_hold (hp : s.phase = .ready) (he : s.enabled = false) :
    takeTurn .iter s = .next (s.emit 0x0#4) := by
  have h := exec_loopStep s
  rw [hp, he] at h
  exact h

/-- The LOOP agent's turn when READY and enabled. -/
theorem takeTurn_iter_step (hp : s.phase = .ready) (he : s.enabled = true) :
    takeTurn .iter s = .next (s.stepTo (nextIndex s.stepIndex s.direction)) := by
  have h := exec_loopStep s
  rw [hp, he] at h
  exact h

/-- Events around one LOOP turn. -/
theorem runTurns_evts_iter_evts {before : List Nat} (after : List Nat)
    (h : takeTurn .iter (s.afterEvents before) = .next t) :
    runTurns (evts before ++ [.iter] ++ evts after) s = .next (t.afterEvents after) := by
  rw [List.append_assoc, runTurns_append_next (runTurns_evts before s), ← runTurns_evts]
  exact runTurns_cons_next h

/-- The toggles among the codes: what is left of them before the LOOP step of the atomic run. -/
def togglesOf (codes : List Nat) : List Nat := codes.filter (· == 0x10)

/-- The codes that are no toggle, which go after it. -/
def nonTogglesOf (codes : List Nat) : List Nat := codes.filter fun c => !(c == 0x10)

theorem enabledAfter_togglesOf (codes : List Nat) : enabledAfter (togglesOf codes) = enabledAfter [] := by
  refine enabledAfter_congr ?_
  rw [togglesOf, List.filter_filter, List.filter_nil, List.filter_eq_nil_iff]
  intro c _
  simp only [Bool.and_eq_true, Bool.or_eq_true, beq_iff_eq]
  omega

theorem directionAfter_togglesOf (codes : List Nat) : directionAfter (togglesOf codes) = directionAfter codes :=
  directionAfter_congr (List.count_filter rfl)

theorem enabledAfter_nonTogglesOf (codes : List Nat) : enabledAfter (nonTogglesOf codes) = enabledAfter codes := by
  refine enabledAfter_congr ?_
  rw [nonTogglesOf, List.filter_filter]
  refine List.filter_congr fun c _ => ?_
  rw [Bool.eq_iff_iff]
  simp only [Bool.and_eq_true, Bool.or_eq_true, Bool.not_eq_true', beq_iff_eq, beq_eq_false_iff_ne]
  omega

theorem directionAfter_nonTogglesOf (codes : List Nat) : directionAfter (nonTogglesOf codes) = directionAfter [] :=
  directionAfter_congr (List.count_eq_zero_of_not_mem (by simp [nonTogglesOf]))

/-- The toggles leave `enabled` alone, and make all of the codes' effect on `direction`. -/
theorem State.afterEvents_togglesOf (codes : List Nat) (s : State) :
    s.afterEvents (togglesOf codes) = s.setDirection (directionAfter codes s.direction) := by
  rw [State.afterEvents, enabledAfter_togglesOf, directionAfter_togglesOf, enabledAfter_nil]
  rfl

/-- The other codes leave `direction` alone, and make all of the codes' effect on `enabled`. -/
theorem State.afterEvents_nonTogglesOf (codes : List Nat) (s : State) :
    s.afterEvents (nonTogglesOf codes) = s.setEnabled (enabledAfter codes s.enabled) := by
  rw [State.afterEvents, enabledAfter_nonTogglesOf, directionAfter_nonTogglesOf, directionAfter_nil]
  rfl

/-- Settles O38: with `enabled` sampled false, every event goes after the LOOP step; with it sampled true, the toggles
before the sample of `direction` go before the LOOP step, which then steps in the sampled direction, and every other
event goes after it. -/
theorem splitIterationHasAnAtomicRun : Obligations.SplitIterationHasAnAtomicRun := by
  intro s u v codes1 codes2 hp hu hv
  cases (runTurns_evts codes1 s).symm.trans hu
  cases (runTurns_evts codes2 _).symm.trans hv
  cases he : s.enabled with
  | false =>
    refine ⟨[], codes1 ++ codes2, .refl _, ?_⟩
    rw [← State.afterEvents_append]
    exact (runTurns_cons_next (takeTurn_iter_hold hp he)).trans (runTurns_evts _ _)
  | true =>
    refine ⟨togglesOf codes1, nonTogglesOf codes1 ++ codes2, ?_, ?_⟩
    · rw [← List.append_assoc]
      exact (List.filter_append_perm (· == 0x10) codes1).append_right codes2
    · have hiter := takeTurn_iter_step (s := s.afterEvents (togglesOf codes1)) hp
        (by rw [State.afterEvents_togglesOf]; exact he)
      rw [runTurns_evts_iter_evts _ hiter, State.afterEvents_append, State.afterEvents_nonTogglesOf,
        State.afterEvents_togglesOf]
      rfl

end Sys2Proof.Machine
end

section
/-! PROOF. The decode of the `evt` format, and encoder against decoder (O27, O28, O31, O32). -/

namespace Sys2Proof.Machine

/-- R62: the button codes are the powers of two of bits 2 to 5. -/
theorem mem_buttonCodes {code : Nat} : code ∈ buttonCodes ↔ ∃ k, (2 ≤ k ∧ k ≤ 5) ∧ code = 2 ^ k := by
  constructor
  · intro h
    simp only [buttonCodes, List.mem_cons, List.not_mem_nil, or_false] at h
    obtain rfl | rfl | rfl | rfl := h
    · exact ⟨2, by decide, rfl⟩
    · exact ⟨3, by decide, rfl⟩
    · exact ⟨4, by decide, rfl⟩
    · exact ⟨5, by decide, rfl⟩
  · rintro ⟨k, ⟨hlo, hhi⟩, rfl⟩
    interval_cases k <;> decide

/-- A code that is no button's is EVT_OTHER (R63). -/
theorem decodeEvt_of_notMem_buttonCodes {code : Nat} (h : code ∉ buttonCodes) : decodeEvt code = .evtOther code := by
  simp only [buttonCodes, List.mem_cons, List.not_mem_nil, or_false, not_or] at h
  obtain ⟨h0, h1, h2, h3⟩ := h
  rw [decodeEvt, if_neg h0, if_neg h1, if_neg h2, if_neg h3]

/-- Everything the `evt` decode can answer. -/
theorem decodeEvt_cases (code : Nat) :
    (code = 0x04 ∧ decodeEvt code = .evtEnable) ∨ (code = 0x08 ∧ decodeEvt code = .evtDisable) ∨
    (code = 0x10 ∧ decodeEvt code = .evtToggleDir) ∨ (code = 0x20 ∧ decodeEvt code = .evtReserved) ∨
    (code ∉ buttonCodes ∧ decodeEvt code = .evtOther code) := by
  by_cases h : code ∈ buttonCodes
  · simp only [buttonCodes, List.mem_cons, List.not_mem_nil, or_false] at h
    obtain rfl | rfl | rfl | rfl := h <;> decide
  · simp [h, decodeEvt_of_notMem_buttonCodes h]

theorem decode_wellFormed {w : OpWord} (hw : w.WellFormed = true) : (decode w).WellFormed = true := by
  cases w with
  | evt code =>
    rw [decode]
    obtain ⟨_, h⟩ | ⟨_, h⟩ | ⟨_, h⟩ | ⟨_, h⟩ | ⟨hother, h⟩ := decodeEvt_cases code <;> rw [h]
    iterate 4 rfl
    simpa [Instr.WellFormed, Instr.WellFormedAt, OpWord.WellFormed, hother] using hw
  | loop sel =>
    rw [decode, decodeLoop]
    split_ifs <;> rfl

theorem encode_wellFormed {i : Instr} (hi : i.WellFormed = true) : (encode i).WellFormed = true := by
  cases i with
  | evtOther code => exact (Laws.EncodeWord.evtOther code hi).1
  | evtEnable | evtDisable | evtToggleDir | evtReserved => rfl
  | delayDone | iterHold | iterStepFwd | iterStepBwd => rfl

theorem decode_encode {i : Instr} (hi : i.WellFormed = true) : decode (encode i) = i := by
  cases i with
  | evtOther code =>
    refine decodeEvt_of_notMem_buttonCodes ?_
    simp only [Instr.WellFormed, Instr.WellFormedAt, Bool.and_eq_true] at hi
    simpa using hi.2
  | evtEnable | evtDisable | evtToggleDir | evtReserved => rfl
  | delayDone | iterHold | iterStepFwd | iterStepBwd => rfl

/-- A status code is its own operation's word, EVT_OTHER's too (log entry 10). -/
theorem encode_decodeEvt (code : Nat) : encode (decodeEvt code) = .evt code := by
  obtain ⟨rfl, h⟩ | ⟨rfl, h⟩ | ⟨rfl, h⟩ | ⟨rfl, h⟩ | ⟨_, h⟩ := decodeEvt_cases code <;> rw [h] <;> rfl

/-- Settles O31: a selector's operation is well-formed, so encoding and decoding give it back too. -/
theorem decodeAndEncodeAgree : Obligations.DecodeAndEncodeAgree :=
  ⟨fun _ hi => ⟨decode_encode hi, encode_wellFormed hi⟩, fun _ => decode_wellFormed, encode_decodeEvt,
    fun sel => decode_encode (decode_wellFormed (w := .loop sel) rfl)⟩

/-- At a width of at least 6, comparing a code with a number of 6 bits loses nothing. -/
theorem toNat_eq_iff_of_six_le {w n : Nat} {c : BitVec w} (hw : 6 ≤ w) (hn : n < 64) :
    c.toNat = n ↔ c = BitVec.ofNat w n := by
  have hfits : n < 2 ^ w := hn.trans_le (Nat.pow_le_pow_right (by decide) hw : 2 ^ 6 ≤ 2 ^ w)
  rw [BitVec.toNat_eq, BitVec.toNat_ofNat, Nat.mod_eq_of_lt hfits]

/-- Settles O27. -/
theorem eventDecodeComparesWholeCodes : Obligations.EventDecodeComparesWholeCodes := by
  intro w c hw
  simp (disch := decide) only [decodeEvt, toNat_eq_iff_of_six_le hw]

/-- Settles O28: a button code has one bit set, and it is one of bits 2 to 5. -/
theorem multiButtonAndForeignBitsAreOther : Obligations.MultiButtonAndForeignBitsAreOther := by
  intro code hcode
  refine decodeEvt_of_notMem_buttonCodes fun hbutton => ?_
  obtain ⟨k, hk, rfl⟩ := mem_buttonCodes.mp hbutton
  simp only [Nat.testBit_two_pow, decide_eq_true_eq] at hcode
  obtain hzero | ⟨i, j, _, hij, _, rfl, rfl⟩ | ⟨i, hforeign, rfl⟩ := hcode
  · exact absurd hzero (Nat.two_pow_pos k).ne'
  · exact absurd hij (lt_irrefl _)
  · omega

/-- Settles O32. -/
theorem wordsFromTheTableDecode : Obligations.WordsFromTheTableDecode :=
  ⟨rfl, rfl, rfl, rfl, rfl, rfl, rfl, rfl, rfl⟩

end Sys2Proof.Machine
end

section
/-! PROOF. The decode of the `loop` format (O29, O30). -/

namespace Sys2Proof.Machine

/-- Settles O29. -/
theorem loopDecodeFollowsTheState : Obligations.LoopDecodeFollowsTheState := by
  intro s
  obtain ⟨hp, h⟩ | ⟨hp, he, h⟩ | ⟨hp, he, hd, h⟩ | ⟨hp, he, hd, h⟩ := s.loopStep_cases
  · rw [h, hp]
  · rw [h, hp, he]
  · rw [h, hp, he, hd]
  · rw [h, hp, he, hd]

/-- Settles O30, over the eight selector values. -/
theorem loopRowsAreDisjointAndCover : Obligations.LoopRowsAreDisjointAndCover := by
  unfold Obligations.LoopRowsAreDisjointAndCover
  decide

end Sys2Proof.Machine
end

section
/-! PROOF. A placed table word runs next (O34). -/

namespace Sys2Proof.Machine

/-- A selector is made of its three bits. -/
theorem selector_eq_bits (sel : Selector) :
    BitVec.ofBool sel[2] ++ BitVec.ofBool sel[1] ++ BitVec.ofBool sel[0] = sel := by
  revert sel
  decide

/-- A selector placed in the state is the one R65 reads there. -/
@[simp] theorem State.select_selector (s : State) (sel : Selector) : (s.select sel).selector = sel := by
  have hphase : decide ((s.select sel).phase = .delay) = sel[2] := by
    cases h : sel[2] <;> simp [State.select, h]
  rw [State.selector, hphase]
  exact selector_eq_bits sel

@[simp] theorem State.select_loopStep (s : State) (sel : Selector) : (s.select sel).loopStep = decodeLoop sel :=
  congrArg decodeLoop (s.select_selector sel)

/-- The step after a turn is placed takes it, at either level. -/
theorem step_schedule (s : State) (e : Environment) (t : Turn) :
    ∃ e', step (s.setEnv (e.schedule t)) = takeTurn t (s.setEnv e') := by
  cases e with
  | events σ => exact ⟨.events σ, rfl⟩
  | clocked σ => exact ⟨.events ⟨[], .free 0 0⟩, rfl⟩

/-- The step after a word is placed runs its operation, which completes. -/
theorem step_placeWord (s : State) (ow : OpWord) :
    ∃ e t, step (s.placeWord ow) = exec (decode ow) ((s.placeWord ow).setEnv e) ∧
      exec (decode ow) ((s.placeWord ow).setEnv e) = .next t := by
  cases ow with
  | evt code =>
    obtain ⟨e, hstep⟩ := step_schedule s s.env (.evt code)
    exact ⟨e, _, hstep, exec_decodeEvt code _⟩
  | loop sel =>
    obtain ⟨e, hstep⟩ := step_schedule (s.select sel) s.env .iter
    have hexec := exec_loopStep ((s.select sel).setEnv e)
    rw [takeTurn, State.loopStep_setEnv, State.select_loopStep] at hstep
    rw [State.loopStep_setEnv, State.select_loopStep] at hexec
    exact ⟨e, _, hstep, hexec⟩

/-- Placing a word leaves the index, the coils, the counter and the upper bits as they were. -/
theorem State.placeWord_frame (s : State) (ow : OpWord) :
    (s.placeWord ow).stepIndex = s.stepIndex ∧ (s.placeWord ow).coil = s.coil ∧
      (s.placeWord ow).delayCnt = s.delayCnt ∧ (s.placeWord ow).outUpper = s.outUpper := by
  cases ow <;> exact ⟨rfl, rfl, rfl, rfl⟩

/-- A row's word that decodes is a word of a format. -/
theorem wordOfBytes_of_decodeTableWord {nbits w : Nat} {i : Instr} (h : decodeTableWord nbits w = some i) :
    ∃ ow, wordOfBytes (bytesOfTableWord nbits w) = .ok ow ∧ decode ow = i := by
  unfold decodeTableWord decodeBytes at h
  cases hw : wordOfBytes (bytesOfTableWord nbits w) with
  | ok ow =>
    simp only [hw, Option.ite_none_right_eq_some, Option.some.injEq] at h
    exact ⟨ow, rfl, h.2⟩
  | error e => simp [hw] at h

/-- A row of more than a byte is a status code. -/
theorem wordOfBytes_bytesOfTableWord_of_lt {nbits : Nat} (w : Nat) (h : 8 < nbits) :
    ∃ code, wordOfBytes (bytesOfTableWord nbits w) = .ok (.evt code) := by
  rw [bytesOfTableWord, if_neg h.not_ge]
  exact ⟨_, rfl⟩

/-- Settles O34. -/
theorem placedWordRunsNext : Obligations.PlacedWordRunsNext := by
  intro s nbits w i hi
  obtain ⟨ow, hword, rfl⟩ := wordOfBytes_of_decodeTableWord hi
  have hplaced : s.withFetchWord nbits w = s.placeWord ow := by
    simp only [State.withFetchWord, State.placeTableWord, hword]
  obtain ⟨e, t, hstep, hexec⟩ := step_placeWord s ow
  obtain ⟨hindex, hcoil, hcounter, hupper⟩ := s.placeWord_frame ow
  refine ⟨(s.placeWord ow).setEnv e, t, hplaced ▸ hstep, hexec, hindex, hcoil, hcounter, hupper, fun hn => ?_⟩
  obtain ⟨code, hevt⟩ := wordOfBytes_bytesOfTableWord_of_lt w hn
  cases hword.symm.trans hevt
  exact ⟨rfl, rfl, rfl⟩

end Sys2Proof.Machine
end

section
/-! PROOF. The index functions, and the ROM along them (O18, O19, O20). -/

namespace Sys2Proof.Machine

/-- The next index by direction, from the normalised one. -/
theorem nextIndex_val (i : Nat) (d : Bool) :
    (nextIndex i d).val =
      if d then (if (normIndex i).val = 0 then 7 else (normIndex i).val - 1) else ((normIndex i).val + 1) % 8 := by
  cases d with
  | false => exact nextFwd_val (normIndex i)
  | true => exact nextBwd_val (normIndex i)

/-- Settles O18. -/
theorem nextIndexNormalisesThenMoves : Obligations.NextIndexNormalisesThenMoves := by
  intro i d
  refine ⟨?value, fun hi => ?corrupted, index_le _, fun hi => ?backward⟩
  case value => rw [nextIndex_val, normIndex_val]
  case corrupted =>
    rw [nextIndex_val, nextIndex_val, normIndex_of_ge hi]
    decide
  case backward =>
    rw [nextIndex_val, normIndex_of_lt hi]
    simp only [if_true]
    split_ifs <;> omega

/-- Settles O19, index by index. -/
theorem transitionsAreMutualInverses : Obligations.TransitionsAreMutualInverses := by
  unfold Obligations.TransitionsAreMutualInverses
  decide

/-- Settles O20, index by index. -/
theorem transitionsHavePeriodEight : Obligations.TransitionsHavePeriodEight := by
  unfold Obligations.TransitionsHavePeriodEight
  decide

/-- Going backward is going forward seen from the new index, so the patterns differ in one line either way. -/
theorem popcount_rom_xor_rom_nextIndex (i : Index) (d : Bool) : popcount (rom i ^^^ rom (nextIndex i.val d)) = 1 := by
  cases d with
  | false =>
    rw [nextIndex_forward, normIndex_index]
    exact popcount_rom_xor_rom_nextFwd i
  | true =>
    have hback := popcount_rom_xor_rom_nextFwd (nextBwd i)
    obtain ⟨_, hinv⟩ := transitionsAreMutualInverses i
    rwa [hinv, BitVec.xor_comm, ← normIndex_index i, ← nextIndex_backward, normIndex_index] at hback

/-- The listing has the entries 0..7, and they are the ROM's. -/
theorem romListing_getElem_eq_some {n : Nat} {p : Pattern} :
    romListing[n]? = some p ↔ n ≤ 7 ∧ p = rom (normIndex n) := by
  by_cases hn : n < 8
  · have hentry : romListing[n]? = some (rom (normIndex n)) := by
      rw [normIndex_of_lt hn]
      exact romListing_getElem ⟨n, hn⟩
    rw [hentry, Option.some_inj, eq_comm]
    exact (and_iff_right (Nat.le_of_lt_succ hn)).symm
  · have hnone : romListing[n]? = none := List.getElem?_eq_none (Nat.le_of_not_lt hn)
    rw [hnone]
    exact ⟨nofun, fun ⟨hle, _⟩ => absurd (Nat.lt_succ_of_le hle) hn⟩

end Sys2Proof.Machine
end

section
/-! PROOF. The results of the four LOOP steps where R65 selects them (O1, O2, O3, O4). -/

namespace Sys2Proof.Machine

variable {s : State}

theorem exec_iterHold (hp : s.phase = .ready) (he : s.enabled = false) :
    exec .iterHold s = .next (s.emit 0x0#4) :=
  State.whenSelected_of (State.loopStep_hold hp he)

theorem exec_iterStepFwd (hp : s.phase = .ready) (he : s.enabled = true) (hd : s.direction = false) :
    exec .iterStepFwd s = .next (s.stepTo (nextFwd (normIndex s.stepIndex))) :=
  State.whenSelected_of (State.loopStep_fwd hp he hd)

theorem exec_iterStepBwd (hp : s.phase = .ready) (he : s.enabled = true) (hd : s.direction = true) :
    exec .iterStepBwd s = .next (s.stepTo (nextBwd (normIndex s.stepIndex))) :=
  State.whenSelected_of (State.loopStep_bwd hp he hd)

theorem exec_delayDone (hp : s.phase = .delay) : exec .delayDone s = .next (s.setPhase .ready) :=
  State.whenSelected_of (State.loopStep_delay hp)

/-- Settles O1: the selector does not read the coils, so the second ITER_HOLD is selected too. -/
theorem iterHoldForcesCoilsToZero : Obligations.IterHoldForcesCoilsToZero := by
  intro s hp he
  refine ⟨exec_iterHold hp he, exec_iterHold (s := s.emit 0x0#4) hp he, ?_⟩
  cases hd : s.direction with
  | false => exact State.loopStep_bwd hp rfl rfl
  | true => exact State.loopStep_fwd hp rfl rfl

/-- Settles O2: an entry of the listing at the old index means that the index is its own normal form. -/
theorem iterStepFwdAdvancesAndEmits : Obligations.IterStepFwdAdvancesAndEmits := by
  intro s hp he hd
  refine ⟨_, exec_iterStepFwd hp he hd, ?index, romListing_getElem _, rfl, fun p hold => ?oneBit⟩
  case index => rw [State.stepTo_stepIndex, nextFwd_val, normIndex_val]
  case oneBit =>
    obtain ⟨_, rfl⟩ := romListing_getElem_eq_some.mp hold
    exact popcount_rom_xor_rom_nextFwd (normIndex s.stepIndex)

/-- Settles O3. -/
theorem iterStepBwdRetreatsAndEmits : Obligations.IterStepBwdRetreatsAndEmits := by
  intro s hp he hd
  refine ⟨_, exec_iterStepBwd hp he hd, ?index, romListing_getElem _, rfl⟩
  case index =>
    rw [State.stepTo_stepIndex, nextBwd_val, normIndex_val]
    by_cases h : 8 ≤ s.stepIndex
    · simp [h]
    · simp [h]

/-- Settles O4. -/
theorem delayDoneOnlyEndsTheDelay : Obligations.DelayDoneOnlyEndsTheDelay :=
  fun _ hp => exec_delayDone hp

end Sys2Proof.Machine
end

section
/-! PROOF. The LOOP agent has exactly one enabled step, and what an iteration emits while disabled (O6, O7). -/

namespace Sys2Proof.Machine

variable {s t : State} {i : Instr}

/-- The selector picks LOOP operations only. -/
theorem State.isLoopOp_loopStep (s : State) : IsLoopOp s.loopStep = true := by
  rcases s.loopStep_cases with ⟨_, h⟩ | ⟨_, _, h⟩ | ⟨_, _, _, h⟩ | ⟨_, _, _, h⟩ <;> rw [h] <;> rfl

/-- A LOOP operation that answers a next state is the selected one. -/
theorem eq_loopStep_of_exec_next (hi : IsLoopOp i = true) (h : exec i s = .next t) : i = s.loopStep := by
  by_contra hne
  rw [exec_refused_of_unselected hi (Ne.symm hne)] at h
  cases h

/-- Settles O6: in a silent environment the step is the LOOP agent's turn, and leaves the environment silent. -/
theorem exactlyOneLoopStepIsEnabled : Obligations.ExactlyOneLoopStepIsEnabled := by
  intro s
  refine ⟨s.isLoopOp_loopStep, ⟨_, exec_loopStep s⟩, fun _ hi ⟨_, h⟩ => eq_loopStep_of_exec_next hi h,
    fun henv => ?silent⟩
  case silent =>
    rw [step_of_nextTurn henv nextTurn_silent, State.setEnv_self henv]
    rfl

/-- A stepping iteration is selected when enabled only. -/
theorem State.enabled_of_loopStep (h : s.loopStep = .iterStepFwd ∨ s.loopStep = .iterStepBwd) : s.enabled = true := by
  rcases s.loopStep_cases with ⟨_, hl⟩ | ⟨_, _, hl⟩ | ⟨_, he, _⟩ | ⟨_, he, _⟩
  · rw [hl] at h; simp at h
  · rw [hl] at h; simp at h
  · exact he
  · exact he

/-- Settles O7: no stepping iteration can be taken while disabled, and after the disabled delay ITER_HOLD is the one
that can. -/
theorem disabledIterationsEmitZero : Obligations.DisabledIterationsEmitZero := by
  refine ⟨fun i s t hi he h => ?iteration, fun s hp => ?disabledDelay⟩
  case iteration =>
    rcases hi with rfl | rfl | rfl
    · obtain ⟨_, rfl⟩ := State.whenSelected_next.mp h
      rfl
    · obtain ⟨hl, _⟩ := State.whenSelected_next.mp h
      exact absurd (State.enabled_of_loopStep (.inl hl)) (Bool.eq_false_iff.mp he)
    · obtain ⟨hl, _⟩ := State.whenSelected_next.mp h
      exact absurd (State.enabled_of_loopStep (.inr hl)) (Bool.eq_false_iff.mp he)
  case disabledDelay =>
    have hdone : takeTurn .done (s.setEnabled false) = .next ((s.setEnabled false).setPhase .ready) := exec_delayDone hp
    have hhold : takeTurn .hold ((s.setEnabled false).setPhase .ready) = _ := exec_iterHold rfl rfl
    have hruns : runTurns [.evt 0x08, .done] s = _ := runTurns_cons_next (rs := []) hdone
    exact ⟨hruns, (runTurns_append_next (qs := [.hold]) hruns).trans (runTurns_cons_next hhold)⟩

end Sys2Proof.Machine
end

section
/-! PROOF. What the operations do to the shared output register (O24). -/

namespace Sys2Proof.Machine

/-- The shared register shows the coils and the platform's bits, and nothing else of the state. -/
theorem State.outReg_congr {s t : State} (w : Nat) (hcoil : t.coil = s.coil) (hupper : t.outUpper = s.outUpper) :
    t.outReg w = s.outReg w := by
  unfold State.outReg
  rw [hcoil, hupper]

/-- No operation but an iteration writes the coils. -/
theorem exec_coil_of_not_iteration {i : Instr} {s t : State} (h : exec i s = .next t) (hh : i ≠ .iterHold)
    (hf : i ≠ .iterStepFwd) (hb : i ≠ .iterStepBwd) : t.coil = s.coil := by
  by_contra hne
  obtain ⟨_, _, _, hcoil, _⟩ := eachFieldHasItsWriters i s t h
  rcases hcoil hne with hi | hi | hi
  · exact hh hi
  · exact hf hi
  · exact hb hi

/-- Settles O24: whatever the operation, the new register is the old one with the new coils emitted, since the
platform's bits stay. -/
theorem emissionMergesTheSharedRegister : Obligations.EmissionMergesTheSharedRegister := by
  intro i s t w hw h
  obtain ⟨_, hupper⟩ := exec_delayCnt_outUpper h
  refine ⟨fun _ => ?_, fun hh hf hb => State.outReg_congr w (exec_coil_of_not_iteration h hh hf hb) hupper⟩
  rw [← State.emit_outReg hw]
  exact State.outReg_congr w rfl hupper

end Sys2Proof.Machine
end

section
/-! PROOF. The patterns of two stepping iterations in succession (O40). -/

namespace Sys2Proof.Machine

/-- A run of a turn and more turns answers a next state only through one in between. -/
theorem runTurns_cons_inv {r : Turn} {rs : List Turn} {s t : State} (h : runTurns (r :: rs) s = .next t) :
    ∃ u, takeTurn r s = .next u ∧ runTurns rs u = .next t := by
  cases hr : takeTurn r s with
  | next u => exact ⟨u, rfl, (runTurns_cons_next hr).symm.trans h⟩
  | fault e => cases e
  | refused q => rw [runTurns_cons_refused rs hr] at h; cases h

/-- Events, DELAY_DONE and ITER_HOLD keep the index, and of them only ITER_HOLD writes the coils. -/
theorem takeTurn_between {r : Turn} {u v : State} (hr : r = .done ∨ r = .hold ∨ ∃ c, r = .evt c)
    (h : takeTurn r u = .next v) :
    v.stepIndex = u.stepIndex ∧ v.coil = if r = .hold then 0x0#4 else u.coil := by
  rcases hr with rfl | rfl | ⟨c, rfl⟩
  · obtain ⟨_, rfl⟩ := State.whenSelected_next.mp h
    exact ⟨rfl, rfl⟩
  · obtain ⟨_, rfl⟩ := State.whenSelected_next.mp h
    exact ⟨rfl, rfl⟩
  · cases (runTurns_evts [c] u).symm.trans (runTurns_cons_next h)
    exact ⟨rfl, rfl⟩

/-- The same of a list of them. -/
theorem runTurns_between {between : List Turn} {u v : State}
    (hbetween : ∀ r ∈ between, r = .done ∨ r = .hold ∨ ∃ c, r = .evt c) (h : runTurns between u = .next v) :
    v.stepIndex = u.stepIndex ∧ v.coil = if .hold ∈ between then 0x0#4 else u.coil := by
  induction between generalizing u with
  | nil => cases h; exact ⟨rfl, rfl⟩
  | cons r rs ih =>
    obtain ⟨hr, hrs⟩ := List.forall_mem_cons.mp hbetween
    obtain ⟨w, hw, hrest⟩ := runTurns_cons_inv h
    obtain ⟨hindex, hcoil⟩ := takeTurn_between hr hw
    obtain ⟨hindexRest, hcoilRest⟩ := ih hrs hrest
    refine ⟨hindexRest.trans hindex, ?_⟩
    rw [hcoilRest, hcoil]
    by_cases hlater : Turn.hold ∈ rs
    · simp [hlater]
    · simp [hlater, eq_comm]

/-- Settles O40: the index of the first iteration is still there at the next one. -/
theorem successivePatternsDifferInOneBit : Obligations.SuccessivePatternsDifferInOneBit := by
  intro s u v t between hps hes hu hbetween hv hpv hev ht
  cases (runTurns_cons_next (takeTurn_iter_step hps hes)).symm.trans hu
  cases (runTurns_cons_next (takeTurn_iter_step hpv hev)).symm.trans ht
  obtain ⟨hindex, hcoil⟩ := runTurns_between hbetween hv
  refine ⟨?oneBit, fun hhold => by rw [hcoil, if_pos hhold], fun hhold => by rw [hcoil, if_neg hhold]⟩
  case oneBit =>
    rw [State.stepTo_coil, State.stepTo_coil, hindex]
    exact popcount_rom_xor_rom_nextIndex _ v.direction

end Sys2Proof.Machine
end

section
/-! PROOF. What the coils show in every state reached from reset (O48). -/

namespace Sys2Proof.Machine

/-- Settles O48: the invariant of R95, read off the listing. -/
theorem reachedCoilIsZeroOrTheIndexPattern : Obligations.ReachedCoilIsZeroOrTheIndexPattern := by
  intro e n t h
  obtain ⟨hrange, hdelay, hready⟩ := h.inv
  have hlisted : t.coil = rom (normIndex t.stepIndex) → romListing[t.stepIndex]? = some t.coil :=
    fun hcoil => romListing_getElem_eq_some.mpr ⟨hrange, hcoil⟩
  have hzero : t.coil = 0x0#4 ∨ romListing[t.stepIndex]? = some t.coil := by
    cases hp : t.phase with
    | ready => exact (hready hp).imp_right hlisted
    | delay => exact .inr (hlisted (hdelay hp))
  refine ⟨fun hp => hlisted (hdelay hp), fun _ => hzero, ?_⟩
  exact List.mem_cons.mpr (hzero.imp_right List.mem_of_getElem?)

end Sys2Proof.Machine
end

section
/-! PROOF. An EVT operation acts as an event of some code, and so on the flags alone (O14). -/

namespace Sys2Proof.Machine

variable {i : Instr}

/-- An event completes in every state, as the list of its one code does. -/
theorem exec_decodeEvt_afterEvents (code : Nat) (s : State) :
    exec (decodeEvt code) s = .next (s.afterEvents [code]) :=
  (exec_decodeEvt code s).trans (congrArg _ (s.afterEvents_singleton code).symm)

/-- Every EVT operation does in every state what some code's event does; EVT_OTHER, which never reads the code it
arrived with (R116), does what code 0's does. -/
theorem exists_code_of_isEvtOp (hi : IsEvtOp i = true) :
    ∃ code, ∀ s, exec i s = .next (s.afterEvents [code]) := by
  cases i with
  | evtEnable => exact ⟨0x04, exec_decodeEvt_afterEvents 0x04⟩
  | evtDisable => exact ⟨0x08, exec_decodeEvt_afterEvents 0x08⟩
  | evtToggleDir => exact ⟨0x10, exec_decodeEvt_afterEvents 0x10⟩
  | evtReserved => exact ⟨0x20, exec_decodeEvt_afterEvents 0x20⟩
  | evtOther code => exact ⟨0x00, exec_decodeEvt_afterEvents 0x00⟩
  | delayDone | iterHold | iterStepFwd | iterStepBwd => cases hi

/-- One event writes at most one of the two flags. -/
theorem enabledAfter_or_directionAfter_singleton (code : Nat) :
    enabledAfter [code] = enabledAfter [] ∨ directionAfter [code] = directionAfter [] := by
  by_cases h : code = 0x10
  · subst h
    exact .inl (enabledAfter_congr rfl)
  · exact .inr (directionAfter_congr (List.count_singleton.trans (if_neg (by simpa using h))))

/-- Settles O14: what an event leaves in each flag is a function of that flag. -/
theorem evtFootprintIsOneFlag : Obligations.EvtFootprintIsOneFlag := by
  intro i s hi
  obtain ⟨code, hexec⟩ := exists_code_of_isEvtOp hi
  refine ⟨s.afterEvents [code], hexec s, rfl, ?oneFlag, fun s' t' he hd h => ?flagsOnly⟩
  case oneFlag =>
    rcases enabledAfter_or_directionAfter_singleton code with h | h
    · exact .inl (congrFun h s.enabled)
    · exact .inr ((congrFun h s.direction).trans (directionAfter_nil _))
  case flagsOnly =>
    cases (hexec s').symm.trans h
    exact ⟨congrArg (enabledAfter [code]) he, congrArg (directionAfter [code]) hd⟩

end Sys2Proof.Machine
end

section
/-! PROOF. The laws of the event operations under sequential composition (O15). -/

namespace Sys2Proof.Machine

variable {s : State}

/-- Two lists of events that do the same to each flag are the same run from every state. -/
theorem runTurns_evts_congr {cs ds : List Nat} (he : enabledAfter cs = enabledAfter ds)
    (hd : directionAfter cs = directionAfter ds) (s : State) : runTurns (evts cs) s = runTurns (evts ds) s := by
  rw [runTurns_evts, runTurns_evts, State.afterEvents, he, hd, ← State.afterEvents]

/-- A code that is none of the three buttons with an effect leaves the state as it is. -/
theorem runTurns_evt_noop {code : Nat} (h0 : code ≠ 0x04) (h1 : code ≠ 0x08) (h2 : code ≠ 0x10) (s : State) :
    runTurns (evts [code]) s = .next s := by
  rw [runTurns_evts, State.afterEvents_singleton, if_neg h0, if_neg h1, if_neg h2]

/-- In the delay an event and DELAY_DONE commute: the one writes flags, the other the phase, and DELAY_DONE is selected
whatever the flags are. -/
theorem runTurns_evt_done_comm (hp : s.phase = .delay) (code : Nat) :
    runTurns [.evt code, .done] s = runTurns [.done, .evt code] s := by
  have hdone : takeTurn .done s = .next (s.setPhase .ready) := exec_delayDone hp
  have hdone' : takeTurn .done (s.afterEvents [code]) = .next ((s.afterEvents [code]).setPhase .ready) :=
    exec_delayDone hp
  calc runTurns [.evt code, .done] s
      = runTurns [.done] (s.afterEvents [code]) := runTurns_append_next (qs := [.done]) (runTurns_evts [code] s)
    _ = .next ((s.afterEvents [code]).setPhase .ready) := runTurns_cons_next hdone'
    _ = .next ((s.setPhase .ready).afterEvents [code]) := rfl
    _ = runTurns (evts [code]) (s.setPhase .ready) := (runTurns_evts [code] _).symm
    _ = runTurns [.done, .evt code] s := (runTurns_cons_next hdone).symm

/-- Settles O15: but for DELAY_DONE and the no-op codes, each law compares two lists of codes, flag by flag. -/
theorem eventOperationLaws : Obligations.EventOperationLaws := by
  intro s
  refine ⟨?enableTwice, ?disableTwice, ?enableDisable, ?disableEnable, ?toggleTwice,
    fun _ h0 h1 h2 => runTurns_evt_noop h0 h1 h2 s, ?toggleEnable, ?toggleDisable, runTurns_evt_done_comm⟩
  case toggleTwice => exact (runTurns_evts_congr (cs := [0x10, 0x10]) (ds := []) rfl rfl s).trans runTurns_nil
  all_goals exact runTurns_evts_congr rfl rfl s

end Sys2Proof.Machine
end

section
/-! PROOF. The results of the five EVT steps, and the LOOP step selected after them (O9, O10, O11, O12, O13). -/

namespace Sys2Proof.Machine

variable (s : State)

@[simp] theorem exec_evtEnable : exec .evtEnable s = .next (s.setEnabled true) := rfl

@[simp] theorem exec_evtDisable : exec .evtDisable s = .next (s.setEnabled false) := rfl

@[simp] theorem exec_evtToggleDir : exec .evtToggleDir s = .next s.toggleDirection := rfl

@[simp] theorem exec_evtReserved : exec .evtReserved s = .next s := rfl

@[simp] theorem exec_evtOther (code : Nat) : exec (.evtOther code) s = .next s := rfl

@[simp] theorem State.toggleDirection_toggleDirection : s.toggleDirection.toggleDirection = s := by
  ext <;> simp

/-- When READY and enabled, `direction` selects the stepping iteration. -/
theorem State.loopStep_stepping {s : State} (hp : s.phase = .ready) (he : s.enabled = true) :
    s.loopStep = if s.direction then .iterStepBwd else .iterStepFwd := by
  cases hd : s.direction with
  | false => exact State.loopStep_fwd hp he hd
  | true => exact State.loopStep_bwd hp he hd

/-- Settles O9. -/
theorem evtEnableSetsEnabledOnly : Obligations.EvtEnableSetsEnabledOnly :=
  fun s => ⟨exec_evtEnable s, fun hp => State.loopStep_stepping (s := s.setEnabled true) hp rfl⟩

/-- Settles O10. -/
theorem evtDisableClearsEnabledOnly : Obligations.EvtDisableClearsEnabledOnly :=
  fun s => ⟨exec_evtDisable s, fun hp => State.loopStep_hold (s := s.setEnabled false) hp rfl,
    fun hp => State.loopStep_delay (s := s.setEnabled false) hp⟩

/-- Settles O11. -/
theorem evtToggleDirComplementsDirectionOnly : Obligations.EvtToggleDirComplementsDirectionOnly := by
  intro s
  refine ⟨exec_evtToggleDir s, ?twice, fun hp he => ?selection⟩
  case twice =>
    calc exec .evtToggleDir s.toggleDirection
        = .next s.toggleDirection.toggleDirection := exec_evtToggleDir _
      _ = .next s := by rw [State.toggleDirection_toggleDirection]
  case selection =>
    refine (State.loopStep_stepping (s := s.toggleDirection) hp he).trans ?_
    rw [State.toggleDirection_direction]
    cases s.direction <;> rfl

/-- Settles O12. -/
theorem evtReservedHasNoEffect : Obligations.EvtReservedHasNoEffect :=
  ⟨rfl, exec_evtReserved⟩

/-- Settles O13. -/
theorem evtOtherHasNoEffect : Obligations.EvtOtherHasNoEffect :=
  ⟨fun _ h0 h1 h2 h3 => decodeEvt_of_notMem_buttonCodes (by simp [buttonCodes, h0, h1, h2, h3]),
    fun code s => exec_evtOther s code⟩

end Sys2Proof.Machine
end

section
/-! PROOF. DELAY_CYCLES is the ceiling (O49). -/

namespace Sys2Proof.Machine

/-- Settles O49: the rounded-up quotient by 10^6 is the least number of cycles that covers the delay. -/
theorem delayCyclesIsTheCeiling : Obligations.DelayCyclesIsTheCeiling := by
  refine ⟨fun us hz hpos => ?_, one_le_delayCycles⟩
  rw [delayCyclesOf]
  exact ceilDiv_spec hpos (by decide)

end Sys2Proof.Machine
end

section
/-! PROOF. A step stops only at a program line that names an unselected LOOP step (O36). -/

namespace Sys2Proof.Machine

/-- A turn that names a LOOP step runs the instruction it names. -/
theorem Turn.exists_instr_of_named {t : Turn} (ht : t ∈ [Turn.hold, .fwd, .bwd, .done]) (s : State) : ∃ i, t.instr s = some i := by
  cases t with
  | hold | fwd | bwd | done => exact ⟨_, rfl⟩
  | reset | evt | iter | platformWrite => simp at ht

/-- If a turn is refused, it is a program line that names a LOOP step, and R65 selects another one. -/
theorem takeTurn_refused_cases {t : Turn} {s : State} {r : Refusal} (h : takeTurn t s = .refused r) :
    t ∈ [Turn.hold, .fwd, .bwd, .done] ∧
      ∃ i, t.instr s = some i ∧ i ≠ s.loopStep ∧ r = .loopStepNotSelected i s.loopStep := by
  have hnamed : t ∈ [Turn.hold, .fwd, .bwd, .done] := by
    by_contra hn
    rw [takeTurn_eq_afterTurn hn] at h
    cases h
  obtain ⟨i, hi⟩ := Turn.exists_instr_of_named hnamed s
  rw [takeTurn_of_instr hi] at h
  obtain ⟨_, hsel, hr⟩ := exec_refused_cases h
  exact ⟨hnamed, i, hi, hsel.symm, hr⟩

/-- Settles O36: a clocked step always answers, and an event-level step stops only where its turn is refused. -/
theorem onlyIllFormedLinesStop : Obligations.OnlyIllFormedLinesStop := by
  intro s
  cases henv : s.env with
  | clocked inputs => exact .inl ⟨_, step_clocked henv⟩
  | events σ =>
    rcases hσ : nextTurn σ with ⟨line, τ⟩
    have hstep := step_of_nextTurn henv hσ
    cases hturn : takeTurn line (s.setEnv (.events τ)) with
    | next u => exact .inl ⟨u, hstep.trans hturn⟩
    | fault f => cases f
    | refused r =>
      obtain ⟨hnamed, i, hi, hsel, rfl⟩ := takeTurn_refused_cases hturn
      rw [Turn.instr_setEnv] at hi
      exact .inr ⟨line, σ, τ, i, rfl, hσ, by simpa using hnamed, hi, hsel, hstep.trans hturn⟩

end Sys2Proof.Machine
end

section
/-! PROOF. An event at the edge of a LOOP step comes after it (O53). -/

namespace Sys2Proof.Machine

/-- A quiet edge is its LOOP part. -/
@[simp] theorem clockEdge_quiet (dc : Nat) (s : State) : clockEdge dc Ports.quiet s = clockLoopPart dc s := rfl

/-- The EVT part of an edge is the event's operation on the LOOP part's result, where that still has the direction
from before the edge, which is the one the EVT part complements. -/
theorem exec_decodeEvt_eq_clockEvtPart (code : Nat) {s t : State} (hdir : t.direction = s.direction) :
    exec (decodeEvt code) t = .next (clockEvtPart (Ports.event code) s t) := by
  simp only [clockEvtPart, Ports.event, if_true]
  rcases decodeEvt_cases code with ⟨_, h⟩ | ⟨_, h⟩ | ⟨_, h⟩ | ⟨_, h⟩ | ⟨_, h⟩ <;> rw [h]
  · exact exec_evtEnable t
  · exact exec_evtDisable t
  · rw [← hdir]
    exact exec_evtToggleDir t
  · exact exec_evtReserved t
  · exact exec_evtOther t code

/-- Settles O53: the LOOP part leaves `direction` as it was before the edge. -/
theorem sameEdgeEventComesAfterTheLoopStep : Obligations.SameEdgeEventComesAfterTheLoopStep := by
  intro dc code s
  obtain ⟨_, hdir, _⟩ := clockLoopPart_frame dc s
  rw [clockEdge_quiet, clockEdge_run (p := Ports.event code) rfl]
  exact exec_decodeEvt_eq_clockEvtPart code hdir

end Sys2Proof.Machine
end

section
/-! PROOF. The quiet edges of one delay (O55). -/

namespace Sys2Proof.Machine

/-- `s` with `n` more edges of the delay to come: READY when there are none (R20). -/
def State.withDelayLeft (n : Nat) (s : State) : State := (s.setDelayCnt n).setPhase (if 0 < n then .delay else .ready)

/-- A stepping edge moves the sequencer and leaves one edge less than DELAY_CYCLES to come. -/
theorem clockEdge_quiet_of_stepping (dc : Nat) {s : State} (hp : s.phase = .ready) (he : s.enabled = true) :
    clockEdge dc Ports.quiet s = (s.stepTo (nextIndex s.stepIndex s.direction)).withDelayLeft (dc - 1) := by
  rw [clockEdge_quiet, clockLoopPart_step hp he, State.withDelayLeft]
  by_cases hdc : 1 < dc
  · simp [hdc]
  · simp [show dc - 1 = 0 by omega, hdc]

/-- A quiet edge in the delay uses up one of the edges to come. -/
theorem clockEdge_quiet_withDelayLeft (dc n : Nat) (s : State) :
    clockEdge dc Ports.quiet (s.withDelayLeft (n + 1)) = s.withDelayLeft n := by
  rw [clockEdge_quiet]
  cases n with
  | zero => rfl
  | succ n => rfl

/-- `j` quiet edges in the delay use up `j` of the edges to come. -/
theorem runClock_quiet_withDelayLeft (dc n j : Nat) (s : State) :
    runClock dc (List.replicate j (.edge Ports.quiet)) (s.withDelayLeft (n + j)) = s.withDelayLeft n := by
  induction j with
  | zero => rfl
  | succ j ih =>
    calc runClock dc (List.replicate (j + 1) (.edge Ports.quiet)) (s.withDelayLeft (n + (j + 1)))
        = runClock dc (List.replicate j (.edge Ports.quiet))
            (clockEdge dc Ports.quiet (s.withDelayLeft (n + j + 1))) := rfl
      _ = runClock dc (List.replicate j (.edge Ports.quiet)) (s.withDelayLeft (n + j)) := by
          rw [clockEdge_quiet_withDelayLeft]
      _ = s.withDelayLeft n := ih

/-- Settles O55: the first edge steps, and the `k - 1` others count, which leaves `dc - k` to come. -/
theorem steppingIterationsAreDelayCyclesApart : Obligations.SteppingIterationsAreDelayCyclesApart := by
  intro dc k s hp he hk hkdc
  obtain ⟨j, rfl⟩ := Nat.exists_eq_add_of_le' hk
  have hleft : dc - 1 = dc - (j + 1) + j := by omega
  calc runClock dc (List.replicate (j + 1) (.edge Ports.quiet)) s
      = runClock dc (List.replicate j (.edge Ports.quiet)) (clockEdge dc Ports.quiet s) := rfl
    _ = (s.stepTo (nextIndex s.stepIndex s.direction)).withDelayLeft (dc - (j + 1)) := by
        rw [clockEdge_quiet_of_stepping dc hp he, hleft, runClock_quiet_withDelayLeft]
    _ = _ := by
        simp only [State.withDelayLeft, Nat.sub_pos_iff_lt]
        rfl

end Sys2Proof.Machine
end

section
/-! PROOF. A software read-modify-write of the shared register beside another writer's store, bit by bit (O26). -/

namespace Sys2Proof.Machine

variable {w : Nat}

/-- Another writer's store keeps the owned bits and writes the others. -/
theorem SharedReg.otherWrite_getLsbD (r : SharedReg w) (v : BitVec w) {k : Nat} (hk : k < w) :
    (r.otherWrite v).reg.getLsbD k = if k < 4 then r.reg.getLsbD k else v.getLsbD k := by
  simp only [SharedReg.otherWrite, BitVec.getLsbD_or, BitVec.getLsbD_and, BitVec.getLsbD_not, BitVec.getLsbD_setWidth,
    ownMask_bit]
  by_cases h4 : k < 4
  · simp [hk, h4]
  · simp [hk, h4]

/-- Settles O26: above the owned bits a merge with a pattern keeps what it is made from, which is the latched register
for the software's write-back, and the register itself for the block's write. -/
theorem softwareWriteBackCanLoseAnUpdate : Obligations.SoftwareWriteBackCanLoseAnUpdate := by
  intro w r v p k hk hkw
  have hmerge (q : BitVec w) : (outMerge q p).getLsbD k = q.getLsbD k :=
    (outMerge_getLsbD (hk.trans hkw.le) q p k).trans (if_neg hk.not_gt)
  have hother (q : SharedReg w) : (q.otherWrite v).reg.getLsbD k = v.getLsbD k :=
    (q.otherWrite_getLsbD v hkw).trans (if_neg hk.not_gt)
  exact ⟨hmerge r.reg, (hmerge _).trans (hother r), (hmerge _).trans (hother r), hother _⟩

end Sys2Proof.Machine
end

section
/-! PROOF. Events in the delay (O39). -/

namespace Sys2Proof.Machine

/-- The LOOP agent's turn in the delay. -/
theorem takeTurn_iter_delay {s : State} (hp : s.phase = .delay) : takeTurn .iter s = .next (s.setPhase .ready) := by
  have h := exec_loopStep s
  rw [hp] at h
  exact h

/-- Settles O39: events write the flags only, and in the delay the selector does not look at them. -/
theorem eventsNeverCutTheDelay : Obligations.EventsNeverCutTheDelay := by
  intro s codes hp
  have hsel : (s.afterEvents codes).loopStep = .delayDone := State.loopStep_delay hp
  have hiter : takeTurn .iter (s.afterEvents codes) = .next ((s.afterEvents codes).setPhase .ready) :=
    takeTurn_iter_delay hp
  exact ⟨s.afterEvents codes, runTurns_evts codes s, rfl, rfl, hp,
    (runTurns_append_next (runTurns_evts codes s)).trans (runTurns_cons_next hiter),
    fun i hi hne u h => hne ((eq_loopStep_of_exec_next hi h).trans hsel)⟩

end Sys2Proof.Machine
end

section
/-! PROOF. A corrupted index in HOLDING (O41). -/

namespace Sys2Proof.Machine

/-- In HOLDING any number of LOOP steps writes the coils at most. -/
theorem runTurns_iters_holding (n : Nat) {s : State} (hp : s.phase = .ready) (he : s.enabled = false) :
    ∃ c, runTurns (List.replicate n .iter) s = .next (s.emit c) := by
  induction n generalizing s with
  | zero => exact ⟨s.coil, rfl⟩
  | succ n ih =>
    obtain ⟨c, hc⟩ := ih (s := s.emit 0x0#4) hp he
    exact ⟨c, (runTurns_cons_next (takeTurn_iter_hold hp he)).trans hc⟩

/-- Settles O41: HOLDING leaves the index and the direction alone, and the first stepping iteration normalises. -/
theorem corruptedIndexSurvivesHolding : Obligations.CorruptedIndexSurvivesHolding := by
  intro n s hp he hi
  obtain ⟨c, hhold⟩ := runTurns_iters_holding n hp he
  have henable : takeTurn (.evt 0x04) (s.emit c) = .next ((s.emit c).setEnabled true) := exec_evtEnable _
  have hstep : takeTurn .iter ((s.emit c).setEnabled true) = _ := takeTurn_iter_step hp rfl
  refine ⟨s.emit c, _, hhold, rfl,
    (runTurns_append_next hhold).trans ((runTurns_cons_next henable).trans (runTurns_cons_next hstep)), ?_⟩
  obtain ⟨_, hcorrupted, _⟩ := nextIndexNormalisesThenMoves s.stepIndex s.direction
  obtain ⟨hfwd, hbwd⟩ := hcorrupted hi
  change (nextIndex s.stepIndex s.direction).val = _
  cases s.direction with
  | false => exact hfwd
  | true => exact hbwd

end Sys2Proof.Machine
end

section
/-! PROOF. HOLDING at index 0 from reset to the first EVT_ENABLE (O44). -/

namespace Sys2Proof.Machine

/-- READY, disabled, at index 0 and with the coils off, as reset leaves the block (R157). -/
def State.HoldingAtZero (s : State) : Prop :=
  s.enabled = false ∧ s.stepIndex = 0 ∧ s.coil = 0x0#4 ∧ s.phase = .ready

variable {s t : State}

/-- Only code 0x04 enables a disabled block. -/
theorem enabledAfter_singleton_false {code : Nat} (h : code ≠ 0x04) : enabledAfter [code] false = false := by
  by_cases h8 : code = 0x08
  · simp [enabledAfter, h8]
  · simp [enabledAfter, h, h8]

/-- The LOOP operation that can be taken there is ITER_HOLD, which emits the 0 that is already there. -/
theorem State.HoldingAtZero.after_loopOp {i : Instr} (hs : s.HoldingAtZero) (hi : IsLoopOp i = true)
    (h : exec i s = .next t) : t.HoldingAtZero := by
  obtain ⟨he, hindex, _, hp⟩ := hs
  obtain rfl : i = .iterHold := (eq_loopStep_of_exec_next hi h).trans (State.loopStep_hold hp he)
  cases (exec_iterHold hp he).symm.trans h
  exact ⟨he, hindex, rfl, hp⟩

/-- No turn but an EVT_ENABLE ends it. -/
theorem State.HoldingAtZero.after_takeTurn {r : Turn} (hs : s.HoldingAtZero) (hr : Turn.evt 0x04 ≠ r)
    (h : takeTurn r s = .next t) : t.HoldingAtZero := by
  cases r with
  | reset => cases h; exact ⟨rfl, rfl, rfl, rfl⟩
  | platformWrite bits => cases h; exact hs
  | evt code =>
    obtain ⟨he, hindex, hcoil, hp⟩ := hs
    have hcode : code ≠ 0x04 := fun hc => hr (congrArg Turn.evt hc.symm)
    cases (exec_decodeEvt_afterEvents code s).symm.trans h
    exact ⟨(congrArg _ he).trans (enabledAfter_singleton_false hcode), hindex, hcoil, hp⟩
  | iter => exact hs.after_loopOp s.isLoopOp_loopStep h
  | hold => exact hs.after_loopOp (i := .iterHold) rfl h
  | fwd => exact hs.after_loopOp (i := .iterStepFwd) rfl h
  | bwd => exact hs.after_loopOp (i := .iterStepBwd) rfl h
  | done => exact hs.after_loopOp (i := .delayDone) rfl h

/-- Nor does a list of such turns. -/
theorem State.HoldingAtZero.after_runTurns {rs : List Turn} (hs : s.HoldingAtZero) (hrs : Turn.evt 0x04 ∉ rs)
    (h : runTurns rs s = .next t) : t.HoldingAtZero := by
  induction rs generalizing s with
  | nil => cases h; exact hs
  | cons r rs ih =>
    obtain ⟨hr, hrest⟩ := not_or.mp (mt List.mem_cons.mpr hrs)
    obtain ⟨u, hu, hut⟩ := runTurns_cons_inv h
    exact ih (hs.after_takeTurn hr hu) hrest hut

/-- Settles O44. -/
theorem holdingUntilTheFirstEnable : Obligations.HoldingUntilTheFirstEnable := by
  refine ⟨State.loopStep_hold rfl rfl, rfl, fun code => ⟨_, exec_decodeEvt code _⟩, fun turns t hturns h => ?_⟩
  have hreset : State.reset.HoldingAtZero := ⟨rfl, rfl, rfl, rfl⟩
  obtain ⟨he, hindex, hcoil, hp⟩ := hreset.after_runTurns hturns h
  exact ⟨he, hindex, hcoil, hp, State.loopStep_hold hp he⟩

end Sys2Proof.Machine
end

section
/-! PROOF. A clock edge is its LOOP part, then the event at its ports (O43, O54, O52). -/

namespace Sys2Proof.Machine

variable {dc : Nat} {p : Ports} {s t : State}

/-- The status codes that the ports deliver at an edge without reset: none or one (R33). -/
def Ports.codes (p : Ports) : List Nat := if p.evtValid then [p.evtCode] else []

theorem Ports.codes_valid (hv : p.evtValid = true) : p.codes = [p.evtCode] := if_pos hv

theorem Ports.codes_idle (hv : p.evtValid = false) : p.codes = [] := by
  simp [Ports.codes, hv]

/-- No events leave the state as it is. -/
@[simp] theorem State.afterEvents_nil (s : State) : s.afterEvents [] = s := by
  ext <;> simp [State.afterEvents]

/-- The EVT part of an edge delivers its code to the LOOP part's result, which still has the direction from before the
edge. -/
theorem clockEvtPart_eq_afterEvents (p : Ports) (hdir : t.direction = s.direction) :
    clockEvtPart p s t = t.afterEvents p.codes := by
  cases hv : p.evtValid with
  | false =>
    rw [Ports.codes_idle hv, State.afterEvents_nil, clockEvtPart, hv]
    rfl
  | true =>
    have hevent : clockEvtPart p s t = clockEvtPart (Ports.event p.evtCode) s t := by
      unfold clockEvtPart
      rw [hv]
      rfl
    have hexec := (exec_decodeEvt_eq_clockEvtPart p.evtCode hdir).symm.trans (exec_decodeEvt_afterEvents p.evtCode t)
    rw [hevent, Ports.codes_valid hv]
    exact Host.Outcome.next.inj hexec

/-- An edge without reset is its LOOP part, then the event. -/
theorem clockEdge_eq_afterEvents (dc : Nat) (s : State) (hr : p.rst = false) :
    clockEdge dc p s = (clockLoopPart dc s).afterEvents p.codes := by
  obtain ⟨_, hdir, _⟩ := clockLoopPart_frame dc s
  rw [clockEdge_run hr, clockEvtPart_eq_afterEvents p hdir]

/-- What the ports make of `enabled`. -/
theorem enabledAfter_codes (p : Ports) (b : Bool) :
    enabledAfter p.codes b =
      if p.evtValid ∧ p.evtCode = 0x04 then true else if p.evtValid ∧ p.evtCode = 0x08 then false else b := by
  cases hv : p.evtValid with
  | false => simp [Ports.codes_idle hv]
  | true =>
    rw [Ports.codes_valid hv]
    by_cases h4 : p.evtCode = 0x04
    · simp [enabledAfter, h4]
    · by_cases h8 : p.evtCode = 0x08
      · simp [enabledAfter, h8]
      · simp [enabledAfter, h4, h8]

/-- What the ports make of `direction`. -/
theorem directionAfter_codes (p : Ports) (b : Bool) :
    directionAfter p.codes b = if p.evtValid ∧ p.evtCode = 0x10 then !b else b := by
  cases hv : p.evtValid with
  | false => simp [Ports.codes_idle hv]
  | true =>
    rw [Ports.codes_valid hv]
    by_cases h : p.evtCode = 0x10
    · simp [directionAfter, h]
    · simp [directionAfter, h]

/-- What the LOOP part of an edge makes of the index, the coils, the phase and the counter (R172). -/
theorem clockLoopPart_fields (dc : Nat) (s : State) :
    (clockLoopPart dc s).stepIndex =
      (if s.phase = .ready ∧ s.enabled then (nextIndex s.stepIndex s.direction).val else s.stepIndex) ∧
    (clockLoopPart dc s).coil =
      (if s.phase = .delay then s.coil
       else if s.enabled then rom (nextIndex s.stepIndex s.direction) else 0x0#4) ∧
    (clockLoopPart dc s).phase =
      (if s.phase = .delay then (if 1 < s.delayCnt then .delay else .ready)
       else if s.enabled then (if 1 < dc then .delay else .ready) else .ready) ∧
    (clockLoopPart dc s).delayCnt =
      (if s.phase = .delay then (if 1 < s.delayCnt then s.delayCnt - 1 else 0)
       else if s.enabled then (if 1 < dc then dc - 1 else 0) else s.delayCnt) := by
  rcases clockLoopPart_cases dc s with ⟨hp, hc, h⟩ | ⟨hp, hc, h⟩ | ⟨hp, he, h⟩ | ⟨hp, he, h⟩ <;> rw [h]
  · simp [hp, hc]
  · simp [hp, hc]
  · simp [hp, he]
  · simp [hp, he]

/-- Settles O43. -/
theorem resetEdgeDominates : Obligations.ResetEdgeDominates := by
  intro dc p q s hp hq
  rw [clockEdge_reset hp, clockEdge_reset hq]
  exact ⟨rfl, rfl⟩

/-- Settles O54: the EVT part writes only the flags. -/
theorem eventPortsDoNotReachTheCoilsInACycle : Obligations.EventPortsDoNotReachTheCoilsInACycle := by
  intro dc p q s hpq
  cases hp : p.rst with
  | false =>
    rw [clockEdge_eq_afterEvents dc s hp, clockEdge_eq_afterEvents dc s (hpq.symm.trans hp)]
    exact ⟨rfl, rfl, rfl, rfl⟩
  | true =>
    rw [clockEdge_reset hp, clockEdge_reset (hpq.symm.trans hp)]
    exact ⟨rfl, rfl, rfl, rfl⟩

/-- Settles O52. -/
theorem clockEdgeFieldByField : Obligations.ClockEdgeFieldByField := by
  rintro dc p s t rfl hr
  obtain ⟨hindex, hcoil, hphase, hcnt⟩ := clockLoopPart_fields dc s
  obtain ⟨henabled, hdirection, hupper, henv⟩ := clockLoopPart_frame dc s
  rw [clockEdge_eq_afterEvents dc s hr]
  refine ⟨hindex, hcoil, hphase, hcnt, ?enabled, ?direction, hupper, henv, fun _ hq => clockEdge_reset hq⟩
  case enabled => exact (congrArg _ henabled).trans (enabledAfter_codes p s.enabled)
  case direction => exact (congrArg _ hdirection).trans (directionAfter_codes p s.direction)

end Sys2Proof.Machine
end

section
/-! PROOF. The edges of one delay, whatever events come at them (O56). -/

namespace Sys2Proof.Machine

/-- Edges in the delay count, and deliver their events to the flags. -/
theorem runClock_withDelayLeft (dc n : Nat) {ps : List Ports} (s : State) (hps : ∀ p ∈ ps, p.rst = false) :
    runClock dc (ps.map .edge) (s.withDelayLeft (n + ps.length)) =
      (s.afterEvents (ps.flatMap Ports.codes)).withDelayLeft n := by
  induction ps generalizing s with
  | nil => rw [List.flatMap_nil, State.afterEvents_nil]; rfl
  | cons p ps ih =>
    obtain ⟨hp, hrest⟩ := List.forall_mem_cons.mp hps
    have hedge : clockEdge dc p (s.withDelayLeft (n + ps.length + 1)) =
        (s.afterEvents p.codes).withDelayLeft (n + ps.length) := by
      rw [clockEdge_eq_afterEvents dc _ hp, ← clockEdge_quiet, clockEdge_quiet_withDelayLeft]
      rfl
    calc runClock dc ((p :: ps).map .edge) (s.withDelayLeft (n + (p :: ps).length))
        = runClock dc (ps.map .edge) (clockEdge dc p (s.withDelayLeft (n + ps.length + 1))) := rfl
      _ = ((s.afterEvents p.codes).afterEvents (ps.flatMap Ports.codes)).withDelayLeft n := by
          rw [hedge, ih _ hrest]
      _ = (s.afterEvents ((p :: ps).flatMap Ports.codes)).withDelayLeft n := by
          rw [List.flatMap_cons, State.afterEvents_append]

/-- Settles O56: the stepping edge leaves DELAY_CYCLES - 1 edges of the delay to come, and those that follow use up
some of them. -/
theorem stepSpacingIsNeverShortened : Obligations.StepSpacingIsNeverShortened := by
  intro dc s p ps hp he hr hps hlen
  have hleft : dc - 1 = dc - 1 - ps.length + ps.length := by omega
  have hstep : clockEdge dc p s =
      ((s.stepTo (nextIndex s.stepIndex s.direction)).afterEvents p.codes).withDelayLeft
        (dc - 1 - ps.length + ps.length) := by
    rw [clockEdge_eq_afterEvents dc s hr, ← clockEdge_quiet, clockEdge_quiet_of_stepping dc hp he, ← hleft]
    rfl
  rw [hstep, runClock_withDelayLeft dc _ _ hps]
  exact ⟨rfl, rfl⟩

end Sys2Proof.Machine
end

section
/-! PROOF. Each clocked run is matched by the event-level run of its turns (O57). -/

namespace Sys2Proof.Machine

variable {s s' : State}

/-- Two states that agree in all but the counter are one state with two counters. -/
theorem State.sameButCounter_iff : s'.SameButCounter s ↔ ∃ n, s' = s.setDelayCnt n := by
  constructor
  · intro (h : s'.setDelayCnt 0 = s.setDelayCnt 0)
    exact ⟨s'.delayCnt, (congrArg (State.setDelayCnt · s'.delayCnt) h :)⟩
  · rintro ⟨n, rfl⟩
    rfl

/-- An edge without reset maps to turns that do what its LOOP part does, whatever the event level's counter holds, and
then its event. -/
theorem edgeTurns_run (dc : Nat) {p : Ports} (s : State) (hr : p.rst = false) :
    ∃ loop, edgeTurns dc p s = loop ++ evts p.codes ∧
      ∀ n, runTurns loop (s.setDelayCnt n) = .next ((clockLoopPart dc s).setDelayCnt n) := by
  have hevt : (if p.evtValid then [Turn.evt p.evtCode] else []) = evts p.codes := by
    unfold Ports.codes
    split <;> rfl
  unfold edgeTurns
  rw [hr, hevt]
  rcases clockLoopPart_cases dc s with ⟨hp, hc, h⟩ | ⟨hp, hc, h⟩ | ⟨hp, he, h⟩ | ⟨hp, he, h⟩ <;> rw [h, hp]
  · exact ⟨[], by simp [hc], fun n => rfl⟩
  · exact ⟨[.done], by simp [hc], fun n => runTurns_cons_next (exec_delayDone (s := s.setDelayCnt n) hp)⟩
  · exact ⟨[.iter], by simp [he], fun n => runTurns_cons_next (takeTurn_iter_hold (s := s.setDelayCnt n) hp he)⟩
  · have hiter (n : Nat) := takeTurn_iter_step (s := s.setDelayCnt n) hp he
    by_cases hd : 1 < dc
    · exact ⟨[.iter], by simp [he, hd], fun n => by rw [runTurns_cons_next (hiter n), if_pos hd, if_pos hd]; rfl⟩
    · refine ⟨[.iter, .done], by simp [he, hd], fun n => ?_⟩
      rw [runTurns_cons_next (hiter n), if_neg hd, if_neg hd]
      exact runTurns_cons_next (exec_delayDone (State.stepTo_phase _ _))

/-- The turns that one clocked input maps to do what it does, up to the counter. -/
theorem runTurns_clockTurns_singleton (dc : Nat) (c : ClockInput) (s : State) (n : Nat) :
    ∃ m, runTurns (clockTurns dc [c] s) (s.setDelayCnt n) = .next ((takeClockInput dc c s).setDelayCnt m) := by
  cases c with
  | platformWrite bits => exact ⟨n, rfl⟩
  | edge p =>
    have hturns : clockTurns dc [.edge p] s = edgeTurns dc p s := List.append_nil _
    rw [hturns, takeClockInput]
    cases hr : p.rst with
    | true =>
      rw [edgeTurns, if_pos hr, clockEdge_reset hr]
      exact ⟨0, rfl⟩
    | false =>
      obtain ⟨loop, hsplit, hloop⟩ := edgeTurns_run dc s hr
      rw [hsplit, clockEdge_eq_afterEvents dc s hr, runTurns_append_next (hloop n), runTurns_evts]
      exact ⟨n, rfl⟩

/-- The turns of a longer list of inputs extend those of a shorter one. -/
theorem clockTurns_append (dc : Nat) (cs ds : List ClockInput) (s : State) :
    clockTurns dc (cs ++ ds) s = clockTurns dc cs s ++ clockTurns dc ds (runClock dc cs s) := by
  induction cs generalizing s with
  | nil => rfl
  | cons c cs ih =>
    cases c with
    | edge p => exact (congrArg _ (ih _)).trans (List.append_assoc _ _ _).symm
    | platformWrite bits => exact congrArg _ (ih _)

/-- The turns that a list of clocked inputs maps to do what it does, up to the counter. -/
theorem runTurns_clockTurns (dc : Nat) (cs : List ClockInput) (s : State) (n : Nat) :
    ∃ m, runTurns (clockTurns dc cs s) (s.setDelayCnt n) = .next ((runClock dc cs s).setDelayCnt m) := by
  induction cs generalizing s n with
  | nil => exact ⟨n, rfl⟩
  | cons c cs ih =>
    obtain ⟨k, hfirst⟩ := runTurns_clockTurns_singleton dc c s n
    obtain ⟨m, hrest⟩ := ih (takeClockInput dc c s) k
    refine ⟨m, ?_⟩
    rw [← List.singleton_append, clockTurns_append, runTurns_append_next hfirst]
    exact hrest

/-- Settles O57. -/
theorem clockedRunsRefineTheEventLevel : Obligations.ClockedRunsRefineTheEventLevel := by
  intro dc cs s s' hs
  refine ⟨?_, fun cs' => clockTurns_append dc cs cs' s⟩
  obtain ⟨n, rfl⟩ := State.sameButCounter_iff.mp hs
  obtain ⟨m, hrun⟩ := runTurns_clockTurns dc cs s n
  exact ⟨_, hrun, State.sameButCounter_iff.mpr ⟨m, rfl⟩⟩

end Sys2Proof.Machine
end

section
/-! PROOF. The machine's clocked runs from reset have event-level runs from reset (O58). -/

namespace Sys2Proof.Machine

/-- In any clocked environment the machine takes some list of inputs, one for each step. -/
theorem run_clocked_inputs (n : Nat) (σ : Schedule ClockInput) (s : State) :
    ∃ (cs : List ClockInput) (τ : Schedule ClockInput),
      Host.Core.run core n (s.setEnv (.clocked σ)) = .next ((runClock delayCycles cs s).setEnv (.clocked τ)) := by
  induction n generalizing σ s with
  | zero => exact ⟨[], σ, rfl⟩
  | succ n ih =>
    obtain ⟨cs, τ, hrest⟩ := ih (nextInput σ).2 (takeClockInput delayCycles (nextInput σ).1 s)
    exact ⟨(nextInput σ).1 :: cs, τ, (run_clocked rfl s).trans hrest⟩

/-- A list of turns that runs from reset is a run of the machine that lists them. -/
theorem reachedFromReset_of_runTurns {ts : List Turn} {t : State} (tail : Tail Turn)
    (h : runTurns ts State.reset = .next t) :
    ReachedFromReset (.events ⟨ts, tail⟩) ts.length (t.setEnv (.events ⟨[], tail⟩)) := by
  have hrun := run_listedTurns ts [] tail State.reset
  rw [runTurns_setEnv _ h, List.append_nil] at hrun
  exact hrun

/-- Settles O58: the schedule lists the turns that the inputs of the clocked run map to. -/
theorem clockedRunsFromResetHaveEventRuns : Obligations.ClockedRunsFromResetHaveEventRuns := by
  intro σ n
  obtain ⟨cs, τ, hclocked⟩ := run_clocked_inputs n σ State.reset
  obtain ⟨m, hevents⟩ := runTurns_clockTurns delayCycles cs State.reset State.reset.delayCnt
  exact ⟨_, _, _, hclocked, reachedFromReset_of_runTurns .silent hevents, rfl, rfl, rfl, rfl, rfl, rfl⟩

end Sys2Proof.Machine
end
